-- ==== Sys2Proof/Word.lean ====
section
/-! DEFINITION. The fixed widths of the block's interface (spec/00_scope.md rule R6). -/

namespace Sys2Proof

/-- One framebuffer cell: 8 bits (R6, R11). -/
abbrev Byte := BitVec 8

/-- One command word: 32 bits (R6, R51). -/
abbrev Word := BitVec 32

/-- One dirty-region register: 12 bits, unsigned (R6, R14). -/
abbrev Reg := BitVec 12

/-- The data of a response: 64 bits, four 16-bit lanes (R6, R56). -/
abbrev Data := BitVec 64

end Sys2Proof
end

