-- ==== Sys2Proof/Syntax.lean ====
section
/-! DEFINITION. The ten commands as decoded data (spec/30_encoding.md rule R53, `Cmd`). -/

namespace Sys2Proof

/-- A command of the block. Operands are unsigned numbers (R52); which values fit their fields is
`Instr.wellFormed` (WellFormed.lean). -/
inductive Instr where
  /-- `SPX x, y, v`: set (`v`) or clear the pixel at the logical coordinate `(x, y)` (R80). -/
  | spx (x y : Nat) (v : Bool)
  /-- `CLR`: zero the framebuffer and mark the whole panel dirty (R82). -/
  | clr
  /-- `SETO r`: set the orientation (R110). -/
  | seto (r : Nat)
  /-- `XFM x, y`: answer the physical coordinate of the logical `(x, y)` (R72). -/
  | xfm (x y : Nat)
  /-- `RDB p, c`: answer the byte at page `p`, column `c` (R100). -/
  | rdb (p c : Nat)
  /-- `DPEEK`: answer the four dirty-region registers (R90). -/
  | dpeek
  /-- `DTAKE`: answer the four registers, then empty the tracker (R91). -/
  | dtake
  /-- `DRST`: empty the tracker (R92). -/
  | drst
  /-- `FPLAN`: answer the flush plan (R93). -/
  | fplan
  /-- `GEO`: answer the geometry and the orientation (R111). -/
  | geo
deriving DecidableEq, Repr

end Sys2Proof
end

