-- ==== Sys2Proof/WellFormed.lean ====
section
/-! DEFINITION. Which operands fit their fields (spec/30_encoding.md rules R51, R52, R57): an operand
that does not fit its field "is an assembly error, not a command". -/

namespace Sys2Proof

/-- The `X` and `Y` fields are 12 bits wide (R51). -/
def fitsCoordinate (n : Nat) : Bool := decide (n < 4096)

/-- The `R` field is 8 bits wide (R51). -/
def fitsOrientation (n : Nat) : Bool := decide (n < 256)

/-- Every operand of the command fits its field. -/
def Instr.wellFormed : Instr → Bool
  | .spx x y _ => fitsCoordinate x && fitsCoordinate y
  | .clr => true
  | .seto r => fitsOrientation r
  | .xfm x y => fitsCoordinate x && fitsCoordinate y
  | .rdb p c => fitsCoordinate p && fitsCoordinate c
  | .dpeek => true
  | .dtake => true
  | .drst => true
  | .fplan => true
  | .geo => true

end Sys2Proof
end

