-- ==== Sys2Proof/Decode.lean ====
section
/-! DEFINITION. The command encoding (spec/30_encoding.md rules R51 to R57, spec/opcode_table.json): the
decoder, total on every 32-bit word, and after it the encoder. -/

namespace Sys2Proof

/-- `op = word[31:28]` (R51). -/
def fieldOp (w : Word) : Nat := (w.extractLsb' 28 4).toNat

/-- `V = word[24]`: 1 = on, 0 = off (R51, format P). -/
def fieldV (w : Word) : Bool := w.getLsbD 24

/-- `X = word[23:12]`, unsigned (R51, R52). -/
def fieldX (w : Word) : Nat := (w.extractLsb' 12 12).toNat

/-- `Y = word[11:0]`, unsigned (R51, R52). -/
def fieldY (w : Word) : Nat := (w.extractLsb' 0 12).toNat

/-- `R = word[7:0]`, unsigned (R51, R52, format O). -/
def fieldR (w : Word) : Nat := (w.extractLsb' 0 8).toNat

/-- One row of the opcode map (R53): a word `w` is the row's command exactly when
`w & mask = pattern`; `build` reads its operands. -/
structure Row where
  mnemonic : String
  pattern : Word
  mask : Word
  build : Word → Instr

/-- The opcode map of R53, row by row. `RDB` has its column in `X` and its page in `Y` (R51, R57). -/
def opcodeRows : List Row :=
  [ ⟨"SPX",   0x10000000#32, 0xFE000000#32, fun w => .spx (fieldX w) (fieldY w) (fieldV w)⟩,
    ⟨"CLR",   0x20000000#32, 0xFFFFFFFF#32, fun _ => .clr⟩,
    ⟨"SETO",  0x30000000#32, 0xFFFFFF00#32, fun w => .seto (fieldR w)⟩,
    ⟨"XFM",   0x40000000#32, 0xFF000000#32, fun w => .xfm (fieldX w) (fieldY w)⟩,
    ⟨"RDB",   0x50000000#32, 0xFF000000#32, fun w => .rdb (fieldY w) (fieldX w)⟩,
    ⟨"DPEEK", 0x60000000#32, 0xFFFFFFFF#32, fun _ => .dpeek⟩,
    ⟨"DTAKE", 0x70000000#32, 0xFFFFFFFF#32, fun _ => .dtake⟩,
    ⟨"DRST",  0x80000000#32, 0xFFFFFFFF#32, fun _ => .drst⟩,
    ⟨"FPLAN", 0x90000000#32, 0xFFFFFFFF#32, fun _ => .fplan⟩,
    ⟨"GEO",   0xA0000000#32, 0xFFFFFFFF#32, fun _ => .geo⟩ ]

/-- Why a word is no command (R54). -/
inductive DecodeError where
  /-- `op` is `0x0` or `0xB` to `0xF`. -/
  | reservedOpcode (op : Nat)
  /-- `op` is a command's, and a bit of that command's zero fields is set. -/
  | nonZeroField (op : Nat)
deriving DecidableEq, Repr

/-- The word is the row's command. -/
def Row.accepts (r : Row) (w : Word) : Bool := w &&& r.mask == r.pattern

/-- The name of a refused word's defect (R54). -/
def rejectWord (w : Word) : DecodeError :=
  if 1 ≤ fieldOp w ∧ fieldOp w ≤ 10 then .nonZeroField (fieldOp w) else .reservedOpcode (fieldOp w)

/-- The first row that accepts the word reads it; a word that no row accepts is refused by name. -/
def scanRows : List Row → Word → Except DecodeError Instr
  | [], w => .error (rejectWord w)
  | r :: rs, w => if r.accepts w then .ok (r.build w) else scanRows rs w

/-- The decoder: every 32-bit word is exactly one command or illegal (R53, R54). -/
def decode (w : Word) : Except DecodeError Instr := scanRows opcodeRows w

/-- The word the host's table numbering denotes: bit 0 least significant, the bits above `nbits` zero.
The command port carries one 32-bit word as a single value (R34), so there is nothing to lay out. -/
def tableWord (nbits w : Nat) : Word := BitVec.ofNat 32 (w % 2 ^ nbits)

/-- The command this decoder reads from a word given in spec/opcode_table.json's numbering. -/
def decodeTableWord (nbits w : Nat) : Option Instr :=
  match decode (tableWord nbits w) with
  | .ok i => some i
  | .error _ => none

/-- Format P: `op`, `V`, `X`, `Y` (R51, R57). -/
def wordP (op : Word) (v : Bool) (x y : Nat) : Word :=
  op ||| (BitVec.ofNat 32 v.toNat <<< 24) ||| (BitVec.ofNat 32 x <<< 12) ||| BitVec.ofNat 32 y

/-- Format C: `op`, `X`, `Y` (R51, R57). -/
def wordC (op : Word) (x y : Nat) : Word :=
  op ||| (BitVec.ofNat 32 x <<< 12) ||| BitVec.ofNat 32 y

/-- Format O: `op`, `R` (R51, R57). -/
def wordO (op : Word) (r : Nat) : Word := op ||| BitVec.ofNat 32 r

/-- The word of a well-formed command (R57). -/
def encode : Instr → Word
  | .spx x y v => wordP 0x10000000#32 v x y
  | .clr => 0x20000000#32
  | .seto r => wordO 0x30000000#32 r
  | .xfm x y => wordC 0x40000000#32 x y
  | .rdb p c => wordC 0x50000000#32 c p
  | .dpeek => 0x60000000#32
  | .dtake => 0x70000000#32
  | .drst => 0x80000000#32
  | .fplan => 0x90000000#32
  | .geo => 0xA0000000#32

end Sys2Proof
end

