-- ==== Sys2Proof/Machine/Memory.lean ====
section
/-! DEFINITION. The framebuffer as plain data (spec/20_memory.md rules R30, R33, R38): a list of
(address, byte) pairs in one canonical form, and the operations over it. Every access moves one byte
(R33); another size cannot be written down. -/

namespace Sys2Proof.Machine

/-- What an address that is not listed reads as. This is the list's own convention, not a statement about
reset: `State.resetWith` lists every byte of `FB_INIT` that differs from it (log 4). -/
def Memory.unlisted : Byte := 0

/-- The canonical form: addresses strictly rising, no entry equal to what an unlisted address reads as. -/
abbrev Memory.wf (m : List Host.Cell) : Prop :=
  m.Pairwise (fun c d => c.1 < d.1) ∧ ∀ c ∈ m, c.2 ≠ Memory.unlisted

/-- Every listed address lies in `[0, n)`. -/
abbrev Memory.below (n : Nat) (m : List Host.Cell) : Prop := ∀ c ∈ m, c.1 < n

/-- `MemRead(a, 1)` (R33). -/
def Memory.read : List Host.Cell → Nat → Byte
  | [], _ => Memory.unlisted
  | c :: m, a => if a = c.1 then c.2 else Memory.read m a

/-- A cell to be put before `m`, left out where it equals what an unlisted address reads as. -/
def Memory.push (a : Nat) (v : Byte) (m : List Host.Cell) : List Host.Cell :=
  if v = Memory.unlisted then m else (a, v) :: m

/-- `MemWrite(a, 1, v)` (R33), keeping the canonical form. -/
def Memory.write : List Host.Cell → Nat → Byte → List Host.Cell
  | [], a, v => Memory.push a v []
  | c :: m, a, v =>
    if a < c.1 then Memory.push a v (c :: m)
    else if a = c.1 then Memory.push a v m
    else c :: Memory.write m a v

/-- `MemWrite(a, 1, 0x00)` for every `a` in `[0, n)` (R82): a byte of value zero is an unlisted one. -/
def Memory.zeroBelow (n : Nat) (m : List Host.Cell) : List Host.Cell :=
  m.filter (fun c => decide (n ≤ c.1))

/-- The canonical memory that holds `f a` at every `a` in `[0, n)`. -/
def Memory.ofFun (n : Nat) (f : Nat → Byte) : List Host.Cell :=
  (List.range n).filterMap (fun a => if f a = Memory.unlisted then none else some (a, f a))

end Sys2Proof.Machine
end

