-- ==== Sys2Proof/Config.lean ====
section
/-! DEFINITION. What is fixed for one instance of the block (spec/00_scope.md rules R4 to R6) and the
values the spec leaves open. -/

namespace Sys2Proof

/-- `FB_INIT(a)` of the machine behind `State.reset`: a free value, any byte per cell, fixed (R27, D12,
U1). It has no body, so no proof can learn a byte of it (log 2). -/
opaque Config.fbInit : Nat → Byte

/-- The parameters of an instance (R4, R6): constants of the machine, held in State so that every
statement ranges over all of them (log 1). -/
structure Params where
  /-- `WIDTH`, the panel width in pixels. -/
  width : Nat
  /-- `HEIGHT`, the panel height in pixels. -/
  height : Nat
  /-- `FB_INIT`, the framebuffer's contents at reset, in the canonical form of Memory.lean. -/
  fbInit : List Host.Cell
  /-- `ORIENT_RESET`, the orientation at reset. -/
  orientReset : BitVec 2
deriving DecidableEq, Repr

/-- The constraints on `WIDTH` and `HEIGHT` (R4). -/
abbrev Params.legal (p : Params) : Prop :=
  1 ≤ p.width ∧ p.width ≤ 4096 ∧ 8 ≤ p.height ∧ p.height ≤ 4096 ∧ p.height % 8 = 0

/-- The default instance of the spec, `WIDTH = 128`, `HEIGHT = 64`, `ORIENT_RESET = 0` (R4, R6), with
free framebuffer contents. -/
def Config.defaultParams : Params where
  width := 128
  height := 64
  fbInit := Machine.Memory.ofFun (128 * 64 / 8) Config.fbInit
  orientReset := 0

end Sys2Proof
end

