-- ==== Sys2Proof/Machine/Region.lean ====
section
/-! DEFINITION. The dirty region: its four registers (spec/10_state.md rules R14 to R16) and how a pixel
write widens it (spec/41_pixel.md rule R81). -/

namespace Sys2Proof.Machine

/-- The four dirty-region registers; all four bounds are inclusive, in physical coordinates (R14). -/
structure Region where
  xmin : Reg
  xmax : Reg
  ymin : Reg
  ymax : Reg
deriving DecidableEq, Repr

/-- The full encoding `(0, WIDTH-1, 0, HEIGHT-1)` (R16). -/
def Region.full (p : Params) : Region where
  xmin := 0
  xmax := BitVec.ofNat 12 (p.width - 1)
  ymin := 0
  ymax := BitVec.ofNat 12 (p.height - 1)

/-- The empty encoding `(WIDTH-1, 0, HEIGHT-1, 0)` (R15). -/
def Region.empty (p : Params) : Region where
  xmin := BitVec.ofNat 12 (p.width - 1)
  xmax := 0
  ymin := BitVec.ofNat 12 (p.height - 1)
  ymax := 0

/-- `Widen(px, py)` (R81): per-axis minimum and maximum of the values before the command, with no test
for emptiness. -/
def Region.widen (r : Region) (px py : Nat) : Region where
  xmin := BitVec.ofNat 12 (min r.xmin.toNat px)
  xmax := BitVec.ofNat 12 (max r.xmax.toNat px)
  ymin := BitVec.ofNat 12 (min r.ymin.toNat py)
  ymax := BitVec.ofNat 12 (max r.ymax.toNat py)

end Sys2Proof.Machine
end

