-- ==== Sys2Proof/Machine/State.lean ====
section
/-! DEFINITION. The state of the block (spec/10_state.md rule R10), its ports (spec/30_encoding.md rule
R50), the reasons a step can stop, and the state after reset (spec/10_state.md rule R27). -/

namespace Sys2Proof.Machine

/-- The status codes of a response (spec/60_exceptions.md rule R140); codes 6 to 15 are never produced
(U4) and have no name here. -/
inductive Status where
  /-- 0: the command did what its rule says. -/
  | ok
  /-- 1: a coordinate outside the canvas, or a page or column outside the buffer. -/
  | outOfBounds
  /-- 2: an invalid orientation operand. -/
  | invalidArgument
  /-- 3: defined by `Transform`, never produced by the block (R141, U5). -/
  | invalidState
  /-- 4: a status of the host's flush, never produced by the block (R141, U6). -/
  | ioError
  /-- 5: the word is not a command (R54). -/
  | illegalCommand
deriving DecidableEq, Repr

/-- One response (R50, R55). -/
structure Response where
  status : Status
  /-- `Pending` after the command's writes. -/
  pending : Bool
  data : Data
deriving DecidableEq, Repr

/-- What the host presents to the block (R50): a word on the command port, or the `rst` input. -/
inductive HostInput where
  | command (w : Word)
  | rst
deriving DecidableEq, Repr

/-- The state: the tuple of R10, the constants of the instance, and the model's two port fields. -/
structure State where
  /-- `WIDTH`, `HEIGHT` and the reset parameters: constants of the instance (R22). -/
  params : Params
  /-- `FB` (R11), canonical as Memory.lean says. -/
  fb : List Host.Cell
  /-- `XMIN`, `XMAX`, `YMIN`, `YMAX` (R14). -/
  region : Region
  /-- `ORIENT` (R21). -/
  orient : BitVec 2
  /-- The model's own: what the host still presents on the input ports, next first (R24; log 5). It is
  not a queue inside the block. -/
  inputs : List HostInput
  /-- The model's own: what the response port last carried, none since reset (log 8). -/
  resp : Option Response
deriving DecidableEq, Repr

/-- Why the machine stops. -/
inductive Fault where
  /-- An access to an address outside `[0, FBSIZE)`, which R38 says does not exist. Raised by
  `State.memRead`; no command of a legal instance forms such an address (R35). Safe. -/
  | noSuchCell (a : Nat)
deriving DecidableEq, Repr

/-- What the model gives no meaning. -/
inductive Refusal where
  /-- Raised by `exec` for a command that has no meaning yet. Safe. -/
  | notModelled (mnemonic : String)
  /-- Raised by `step` where `WIDTH` or `HEIGHT` is outside R4: "no instance exists" (U7). Safe. -/
  | noSuchInstance
deriving DecidableEq, Repr

/-- The outcome of a step or of a command. -/
abbrev Result := Host.Outcome State Fault Refusal

/-- The state of the instance `p` right after reset (R27, R161). -/
def State.resetWith (p : Params) : State where
  params := p
  fb := p.fbInit
  region := Region.full p
  orient := p.orientReset
  inputs := []
  resp := none

/-- The default instance right after reset; the bytes of its framebuffer are the free value
`Config.fbInit` (log 2). -/
def State.reset : State := State.resetWith Config.defaultParams

end Sys2Proof.Machine
end

