-- ==== Sys2Proof/Machine/Flags.lean ====
section
/-! DEFINITION. The block's one flag (spec/10_state.md rules R17, R18, R26), the status numbers
(spec/60_exceptions.md rule R140) and the lanes of a response (spec/30_encoding.md rule R56). -/

namespace Sys2Proof.Machine

/-- `Pending`: `XMIN ≤ XMAX and YMIN ≤ YMAX`, on the current register values (R17). -/
def Region.pending (r : Region) : Bool := decide (r.xmin ≤ r.xmax ∧ r.ymin ≤ r.ymax)

/-- The two states of the tracker's state machine (R18). -/
inductive TrackerState where
  | empty
  | pending
deriving DecidableEq, Repr

/-- The tracker's state, read off the registers (R18). -/
def Region.tracker (r : Region) : TrackerState := if r.pending then .pending else .empty

/-- The `pending` output line, at all times equal to the flag (R26). -/
def State.pendingLine (s : State) : Bool := s.region.pending

/-- The 4-bit code of a status (R140). -/
def Status.code : Status → BitVec 4
  | .ok => 0
  | .outOfBounds => 1
  | .invalidArgument => 2
  | .invalidState => 3
  | .ioError => 4
  | .illegalCommand => 5

/-- `lanes(a, b, c, d)`: `a` in bits 63:48, `d` in bits 15:0, each a 16-bit number (R56). -/
def lanes (a b c d : Nat) : Data :=
  BitVec.ofNat 16 a ++ BitVec.ofNat 16 b ++ BitVec.ofNat 16 c ++ BitVec.ofNat 16 d

/-- Lane `L<k>` of response data: bits `16k+15` to `16k` (R56). -/
def lane (d : Data) (k : Nat) : Nat := (d.extractLsb' (16 * k) 16).toNat

end Sys2Proof.Machine
end

