-- ==== Sys2Proof/Machine/Operands.lean ====
section
/-! DEFINITION. From operands to places: the derived constants of an instance (spec/00_scope.md rule R5),
the layout of the framebuffer (spec/20_memory.md rules R31, R32), and the address transform
(spec/40_transform.md rules R70, R71). Quantities are natural numbers, narrowed only where a register
or lane is written (R75). -/

namespace Sys2Proof.Machine

/-- `PAGES = HEIGHT / 8` (R5). -/
def pages (p : Params) : Nat := p.height / 8

/-- `FBSIZE = WIDTH * PAGES` (R5). -/
def fbSize (p : Params) : Nat := p.width * pages p

/-- `Addr(p, c) = p * WIDTH + c`, for page `pg` and column `c` (R31). -/
def addr (p : Params) (pg c : Nat) : Nat := pg * p.width + c

/-- The address part of `PixelLoc(px, py)` (R32). -/
def pixelAddr (p : Params) (px py : Nat) : Nat := addr p (py / 8) px

/-- The bit index part of `PixelLoc(px, py)` (R32). -/
def pixelBit (py : Nat) : Nat := py % 8

/-- `mask(px, py) = 1 << (py mod 8)`, a byte with one bit set (R13, R32). -/
def pixelMask (py : Nat) : Byte := 1#8 <<< pixelBit py

/-- `SPX`'s new byte: the masked bit set or cleared, the other seven kept (R80). -/
def paintByte (old m : Byte) (v : Bool) : Byte := if v then old ||| m else old &&& ~~~m

/-- `Transform(x, y, o)` (R70). The orientation is examined first: above 3 the answer is
`INVALID_STATE` whatever `x` and `y` are. -/
def transform (p : Params) (x y : Nat) (o : BitVec 8) : Except Status (Nat × Nat) :=
  match o.toNat with
  | 0 => if x < p.width ∧ y < p.height then .ok (x, y) else .error .outOfBounds
  | 1 => if x < p.height ∧ y < p.width then .ok (p.width - y - 1, x) else .error .outOfBounds
  | 2 => if x < p.width ∧ y < p.height then .ok (p.width - x - 1, p.height - y - 1)
         else .error .outOfBounds
  | 3 => if x < p.height ∧ y < p.width then .ok (y, p.height - x - 1) else .error .outOfBounds
  | _ => .error .invalidState

/-- The transform of a command's logical operands: `Transform(x, y, zext_8(ORIENT))` (R72, R80). -/
def State.physical (s : State) (x y : Nat) : Except Status (Nat × Nat) :=
  transform s.params x y (s.orient.setWidth 8)

end Sys2Proof.Machine
end

