-- ==== Sys2Proof/Machine/Ops.lean ====
section
/-! DEFINITION. The named operations over the state that the commands share: updates, the access to the
framebuffer (spec/20_memory.md), the two ways a command completes, `respond` and `raise`
(spec/00_scope.md section 5, spec/60_exceptions.md rules R140, R142), and what `rst` does
(spec/70_reset_and_hazards.md rule R161). -/

namespace Sys2Proof.Machine

/-- `FB` replaced. -/
def State.setFb (s : State) (m : List Host.Cell) : State := { s with fb := m }

/-- The four dirty-region registers replaced. -/
def State.setRegion (s : State) (r : Region) : State := { s with region := r }

/-- `ORIENT` replaced. -/
def State.setOrient (s : State) (o : BitVec 2) : State := { s with orient := o }

/-- The host's remaining inputs replaced. -/
def State.setInputs (s : State) (l : List HostInput) : State := { s with inputs := l }

/-- The response port replaced. -/
def State.setResp (s : State) (r : Option Response) : State := { s with resp := r }

/-- `respond(data)`: complete with status `OK`; `pending` is the flag after the command's writes (R55). -/
def State.respond (s : State) (d : Data) : Result :=
  .next (s.setResp (some ⟨.ok, s.region.pending, d⟩))

/-- `raise E`: TAKING AN EXCEPTION. The response carries the status `E`, data 0 and the unchanged flag,
and nothing else changes (R140, R142). There is no trap entry and no return from one (R146, R147):
the next command executes as if this one had never been sent. -/
def State.raise (s : State) (e : Status) : Result :=
  .next (s.setResp (some ⟨e, s.region.pending, 0⟩))

/-- A word that is no command completes with `ILLEGAL_COMMAND` (R54). -/
def State.illegal (s : State) : Result := s.raise .illegalCommand

/-- `MemRead(a, 1)`, its byte given to `k`; an address outside `[0, FBSIZE)` does not exist (R33, R38). -/
def State.memRead (s : State) (a : Nat) (k : Byte → Result) : Result :=
  if a < fbSize s.params then k (Memory.read s.fb a) else .fault (.noSuchCell a)

/-- `MemWrite(a, 1, v)` at an address that `memRead` accepted (R33). -/
def State.memWrite (s : State) (a : Nat) (v : Byte) : State := s.setFb (Memory.write s.fb a v)

/-- `MemWrite(a, 1, 0x00)` for every `a` of the framebuffer (R82). -/
def State.zeroFb (s : State) : State := s.setFb (Memory.zeroBelow (fbSize s.params) s.fb)

/-- The registers at the full encoding (R16). -/
def State.markFull (s : State) : State := s.setRegion (Region.full s.params)

/-- The tracker's reset path: the registers at the empty encoding (R15). -/
def State.emptyTracker (s : State) : State := s.setRegion (Region.empty s.params)

/-- `Widen(px, py)` (R81). -/
def State.widen (s : State) (px py : Nat) : State := s.setRegion (s.region.widen px py)

/-- The writes of `SPX` at the physical pixel `(px, py)` whose byte is `old`: only where the byte changes,
the byte is written and the region widened (R80). -/
def State.paint (s : State) (px py : Nat) (v : Bool) (old : Byte) : State :=
  if paintByte old (pixelMask py) v = old then s
  else (s.memWrite (pixelAddr s.params px py) (paintByte old (pixelMask py) v)).widen px py

/-- The effect of `rst` (R161): the reset state of the same instance. What the host presents next stays;
no response is given (log 7). -/
def State.takeReset (s : State) : Result := .next ((State.resetWith s.params).setInputs s.inputs)

/-- Nothing presented: nothing happens "except in response to a call" (R144; log 6). -/
def State.idle (s : State) : Result := .next s

end Sys2Proof.Machine
end

