-- ==== Sys2Proof/Machine/Configuration.lean ====
section
/-! DEFINITION. `SETO` and `GEO` (spec/44_config.md). -/

namespace Sys2Proof.Machine

/-- `SETO r` (R110). -/
def execSeto (r : Nat) (s : State) : Result :=
  if 3 < r then s.raise .invalidArgument else (s.setOrient (BitVec.ofNat 2 r)).respond 0

/-- `GEO` (R111). -/
def execGeo (s : State) : Result :=
  s.respond (lanes s.params.width s.params.height 0 s.orient.toNat)

end Sys2Proof.Machine
end

