-- ==== Sys2Proof/Machine/Dirty.lean ====
section
/-! DEFINITION. `DPEEK`, `DTAKE`, `DRST`, `FPLAN` (spec/42_dirty.md). -/

namespace Sys2Proof.Machine

/-- The four registers in the lanes' order (R56). -/
def Region.asLanes (r : Region) : Data := lanes r.xmin.toNat r.xmax.toNat r.ymin.toNat r.ymax.toNat

/-- The flush plan: columns, and `y / 8` as pages (R93). -/
def Region.planLanes (r : Region) : Data :=
  lanes r.xmin.toNat r.xmax.toNat (r.ymin.toNat / 8) (r.ymax.toNat / 8)

/-- `DPEEK` (R90). -/
def execDpeek (s : State) : Result := s.respond s.region.asLanes

/-- `DTAKE` (R91): the response is formed from the values before the tracker is emptied. -/
def execDtake (s : State) : Result := s.emptyTracker.respond s.region.asLanes

/-- `DRST` (R92). -/
def execDrst (s : State) : Result := s.emptyTracker.respond 0

/-- `FPLAN` (R93). -/
def execFplan (s : State) : Result := s.respond s.region.planLanes

end Sys2Proof.Machine
end

