-- ==== Sys2Proof/Machine/Pixel.lean ====
section
/-! DEFINITION. `SPX` and `CLR` (spec/41_pixel.md). -/

namespace Sys2Proof.Machine

/-- `SPX x, y, v` (R80, R83): transform first; a failure performs no mutation. -/
def execSpx (x y : Nat) (v : Bool) (s : State) : Result :=
  match s.physical x y with
  | .error e => s.raise e
  | .ok q => s.memRead (pixelAddr s.params q.1 q.2) (fun old => (s.paint q.1 q.2 v old).respond 0)

/-- `CLR` (R82). -/
def execClr (s : State) : Result := s.zeroFb.markFull.respond 0

end Sys2Proof.Machine
end

