-- ==== Sys2Proof/Machine/Scanout.lean ====
section
/-! DEFINITION. `RDB` (spec/43_scanout.md rule R100). -/

namespace Sys2Proof.Machine

/-- `RDB p, c`, for page `pg` and column `c` (R100): never rotated. -/
def execRdb (pg c : Nat) (s : State) : Result :=
  if pages s.params ≤ pg ∨ s.params.width ≤ c then s.raise .outOfBounds
  else s.memRead (addr s.params pg c) (fun b => s.respond (b.setWidth 64))

end Sys2Proof.Machine
end

