-- ==== Sys2Proof/Machine/Transform.lean ====
section
/-! DEFINITION. `XFM` (spec/40_transform.md rule R72). -/

namespace Sys2Proof.Machine

/-- `XFM x, y` (R72). -/
def execXfm (x y : Nat) (s : State) : Result :=
  match s.physical x y with
  | .error e => s.raise e
  | .ok q => s.respond (lanes 0 0 q.1 q.2)

end Sys2Proof.Machine
end

