-- ==== Sys2Proof/Machine/Dispatch.lean ====
section
/-! DEFINITION. The meaning of every command, one arm each (spec/30_encoding.md rule R53). -/

namespace Sys2Proof.Machine

def exec (i : Instr) (s : State) : Host.Outcome State Fault Refusal :=
  match i with
  | .spx x y v => Sys2Proof.Machine.execSpx x y v s
  | .clr => Sys2Proof.Machine.execClr s
  | .seto r => Sys2Proof.Machine.execSeto r s
  | .xfm x y => Sys2Proof.Machine.execXfm x y s
  | .rdb pg c => Sys2Proof.Machine.execRdb pg c s
  | .dpeek => Sys2Proof.Machine.execDpeek s
  | .dtake => Sys2Proof.Machine.execDtake s
  | .drst => Sys2Proof.Machine.execDrst s
  | .fplan => Sys2Proof.Machine.execFplan s
  | .geo => Sys2Proof.Machine.execGeo s

end Sys2Proof.Machine
end

