-- ==== Sys2Proof/Machine/Step.lean ====
section
/-! DEFINITION. One step: the block serves the next thing the host presents (spec/00_scope.md rule R7,
spec/30_encoding.md rules R50, R54, spec/70_reset_and_hazards.md rule R160). -/

namespace Sys2Proof.Machine

/-- One step. A command is decoded first, before any operand is interpreted (R143), and executed as one
indivisible step; `rst` resets; with nothing presented the block idles. Parameters outside R4 have no
instance (U7). -/
def step (s : State) : Host.Outcome State Fault Refusal :=
  if s.params.legal then
    match s.inputs with
    | [] => s.idle
    | .rst :: rest => (s.setInputs rest).takeReset
    | .command w :: rest =>
      match decode w with
      | .ok i => exec i (s.setInputs rest)
      | .error _ => (s.setInputs rest).illegal
  else .refused .noSuchInstance

/-- `s` with the host presenting the table word next (log 9). -/
def State.withFetchWord (s : State) (nbits w : Nat) : State :=
  s.setInputs (.command (tableWord nbits w) :: s.inputs)

end Sys2Proof.Machine
end

