-- ==== Sys2Proof/Machine/Framer.lean ====
section
/-! DEFINITION. OUTSIDE THE BLOCK: the host's flush over the block's commands (spec/50_boundary.md rules
R121 to R123) and the framer's data loop (R125), with the transport as a list of answers. The block
itself needs none of this file (log 14). -/

namespace Sys2Proof.Machine

/-- What the framer sends. Opcodes and parameter bytes are not in the spec (N9). -/
inductive Call where
  /-- The "set column address range" command, bounded by the two columns (R121). -/
  | columnRange (c0 c1 : Nat)
  /-- The "set page address range" command, bounded by the two pages (R121). -/
  | pageRange (p0 p1 : Nat)
  /-- One data transaction: the mode prefix and the payload bytes the transport accepted (R125). -/
  | data (accepted : List Byte)
deriving DecidableEq, Repr

/-- How the transport answers one transaction (R126, U10): bytes accepted, and whether it succeeded. -/
structure Answer where
  accepted : Nat
  ok : Bool
deriving DecidableEq, Repr

/-- How a part of the flush ended: success, the answers left, and what was sent. -/
structure SendEnd where
  ok : Bool
  rest : List Answer
  calls : List Call
deriving DecidableEq, Repr

/-- How a flush ended: `OK` or `IO_ERROR`, the block's state, and what was sent. -/
structure FlushEnd where
  status : Status
  block : State
  calls : List Call
deriving DecidableEq, Repr

/-- The host issues a command and waits for its response. -/
def issue (i : Instr) (s : State) : Option (Response × State) :=
  match exec i s with
  | .next t => t.resp.map (fun r => (r, t))
  | .fault _ => none
  | .refused _ => none

/-- `first, first+1, ..., last`, ascending and inclusive (R121). -/
def upTo (first last : Nat) : List Nat := List.range' first (last + 1 - first)

/-- The bytes of page `pg` at the given columns, by one `RDB` each (R121). -/
def readSlice (pg : Nat) : List Nat → State → Option (List Byte × State)
  | [], s => some ([], s)
  | c :: cs, s =>
    match issue (.rdb pg c) s with
    | none => none
    | some (r, t) =>
      match readSlice pg cs t with
      | none => none
      | some (bs, u) => some (r.data.setWidth 8 :: bs, u)

/-- `send_data` (R125): a new transaction until the whole payload has been accepted; a failed one ends it.
Where the answers run out the host still waits: no end. -/
def sendData : List Answer → List Byte → Option SendEnd
  | as, [] => some ⟨true, as, []⟩
  | [], _ :: _ => none
  | a :: as, b :: bs =>
    if a.ok then
      (sendData as ((b :: bs).drop a.accepted)).map
        (fun e => { e with calls := .data ((b :: bs).take a.accepted) :: e.calls })
    else some ⟨false, as, [.data ((b :: bs).take a.accepted)]⟩

/-- `send_command` (R124): one transaction. -/
def sendCommand (c : Call) : List Answer → Option SendEnd
  | [] => none
  | a :: as => some ⟨a.ok, as, [c]⟩

/-- The page loop of the flush: each page's slice as one data-send (R121). -/
def sendPages (cols : List Nat) : List Nat → List Answer → State → Option (SendEnd × State)
  | [], as, s => some (⟨true, as, []⟩, s)
  | pg :: pgs, as, s =>
    match readSlice pg cols s with
    | none => none
    | some (bytes, t) =>
      match sendData as bytes with
      | none => none
      | some e =>
        if e.ok then
          (sendPages cols pgs e.rest t).map
            (fun q => ({ q.1 with calls := e.calls ++ q.1.calls }, q.2))
        else some (e, t)

/-- The flush after its plan, from the two range commands to `DRST` (R121). -/
def flushPlan (c0 c1 p0 p1 : Nat) (as : List Answer) (s : State) : Option FlushEnd :=
  match sendCommand (.columnRange c0 c1) as with
  | none => none
  | some e1 =>
    if e1.ok then
      match sendCommand (.pageRange p0 p1) e1.rest with
      | none => none
      | some e2 =>
        if e2.ok then
          match sendPages (upTo c0 c1) (upTo p0 p1) e2.rest s with
          | none => none
          | some (e3, t) =>
            if e3.ok then
              (issue .drst t).map (fun q => ⟨.ok, q.2, e1.calls ++ e2.calls ++ e3.calls⟩)
            else some ⟨.ioError, t, e1.calls ++ e2.calls ++ e3.calls⟩
        else some ⟨.ioError, s, e1.calls ++ e2.calls⟩
    else some ⟨.ioError, s, e1.calls⟩

/-- `FLUSH()` (R121): the plan is executed only where the response's `pending` bit says so (R122). -/
def flush (as : List Answer) (s : State) : Option FlushEnd :=
  match issue .fplan s with
  | none => none
  | some (r, t) =>
    if r.pending then flushPlan (lane r.data 3) (lane r.data 2) (lane r.data 1) (lane r.data 0) as t
    else some ⟨.ok, t, []⟩

end Sys2Proof.Machine
end

