-- ==== Sys2Proof/Safety.lean ====
section
/-! DEFINITION. The terms in which statements are made: the invariant of spec/10_state.md rule R19, the
canvas of spec/40_transform.md rule R71, what a response says, what a command leaves alone, and the
record of pixel changes behind spec/10_state.md rule R20. -/

namespace Sys2Proof.Machine

/-- The registers hold exactly the empty encoding `(WIDTH-1, 0, HEIGHT-1, 0)` (R15, R19 (a)). -/
abbrev Region.isEmpty (p : Params) (r : Region) : Prop :=
  r.xmin.toNat = p.width - 1 ∧ r.xmax.toNat = 0 ∧ r.ymin.toNat = p.height - 1 ∧ r.ymax.toNat = 0

/-- The registers hold exactly the full encoding `(0, WIDTH-1, 0, HEIGHT-1)` (R16). -/
abbrev Region.isFull (p : Params) (r : Region) : Prop :=
  r.xmin.toNat = 0 ∧ r.xmax.toNat = p.width - 1 ∧ r.ymin.toNat = 0 ∧ r.ymax.toNat = p.height - 1

/-- The registers hold a rectangle inside the panel (R19 (b)). -/
abbrev Region.isRect (p : Params) (r : Region) : Prop :=
  r.xmin.toNat ≤ r.xmax.toNat ∧ r.xmax.toNat ≤ p.width - 1 ∧
  r.ymin.toNat ≤ r.ymax.toNat ∧ r.ymax.toNat ≤ p.height - 1

/-- The region covers the physical pixel `(px, py)` (R14). -/
abbrev Region.covers (r : Region) (px py : Nat) : Prop :=
  r.xmin.toNat ≤ px ∧ px ≤ r.xmax.toNat ∧ r.ymin.toNat ≤ py ∧ py ≤ r.ymax.toNat

/-- Page `pg`, column `c` lies in the region's flush plan (R93). -/
abbrev Region.plans (r : Region) (pg c : Nat) : Prop :=
  r.ymin.toNat / 8 ≤ pg ∧ pg ≤ r.ymax.toNat / 8 ∧ r.xmin.toNat ≤ c ∧ c ≤ r.xmax.toNat

/-- The framebuffer list is canonical and lists only addresses of the instance. -/
abbrev fbOk (p : Params) (m : List Host.Cell) : Prop := Memory.wf m ∧ Memory.below (fbSize p) m

/-- A legal instance: R4, and reset contents that are a framebuffer of the instance. -/
abbrev proper (p : Params) : Prop := p.legal ∧ fbOk p p.fbInit

/-- The invariant: a legal instance, a framebuffer of exactly its size in canonical form, and the
registers in one of the two cases of R19. -/
abbrev State.inv (s : State) : Prop :=
  proper s.params ∧ fbOk s.params s.fb ∧ (s.region.isEmpty s.params ∨ s.region.isRect s.params)

/-- `0 ≤ x < CW(o)` and `0 ≤ y < CH(o)` (R71). -/
abbrev inCanvas (p : Params) (o : BitVec 2) (x y : Nat) : Prop :=
  if o = 0 ∨ o = 2 then x < p.width ∧ y < p.height else x < p.height ∧ y < p.width

/-- The word is no command, in R54's own terms: a reserved opcode, or a command's opcode with a bit of its
zero fields set. -/
abbrev illegalWord (w : Word) : Prop :=
  let op := (w.extractLsb' 28 4).toNat
  op = 0 ∨ 11 ≤ op ∨
  (op = 1 ∧ w.extractLsb' 25 3 ≠ 0) ∨
  ((op = 4 ∨ op = 5) ∧ w.extractLsb' 24 4 ≠ 0) ∨
  (op = 3 ∧ w.extractLsb' 8 20 ≠ 0) ∨
  ((op = 2 ∨ 6 ≤ op ∧ op ≤ 10) ∧ w.extractLsb' 0 28 ≠ 0)

/-- Everything but the response port is as it was: constants, every byte of `FB`, the four registers,
`ORIENT` and the host's remaining inputs. -/
abbrev State.sameBlock (s t : State) : Prop :=
  t.params = s.params ∧ t.fb = s.fb ∧ t.region = s.region ∧ t.orient = s.orient ∧ t.inputs = s.inputs

/-- The response port carries status `st`, `pending` equal to the flag on the state it stands in, and the
four lanes. -/
abbrev State.answered (t : State) (st : Status) (l3 l2 l1 l0 : Nat) : Prop :=
  ∃ r, t.resp = some r ∧ r.status = st ∧ r.pending = t.region.pending ∧
    lane r.data 3 = l3 ∧ lane r.data 2 = l2 ∧ lane r.data 1 = l1 ∧ lane r.data 0 = l0

/-- `pixel(px, py)` (R32): the pixel's bit of its byte. -/
def State.pixel (s : State) (px py : Nat) : Bool :=
  (Memory.read s.fb (pixelAddr s.params px py)).getLsbD (pixelBit py)

/-- The byte at page `pg`, column `c` (R31). -/
def State.byteAt (s : State) (pg c : Nat) : Byte := Memory.read s.fb (addr s.params pg c)

/-- The input empties or resets the tracker: `DTAKE`, `DRST` or `rst` (R20). -/
def HostInput.restartsTracker : HostInput → Bool
  | .rst => true
  | .command w =>
    match decode w with
    | .ok .dtake => true
    | .ok .drst => true
    | _ => false

/-- The input is a `CLR`. -/
def HostInput.clears : HostInput → Bool
  | .rst => false
  | .command w =>
    match decode w with
    | .ok .clr => true
    | _ => false

/-- The physical pixel whose bit the next step changes, where the next input is such an `SPX` (R20). -/
def State.changesPixel (s : State) : Option (Nat × Nat) :=
  match s.inputs with
  | .command w :: _ =>
    match decode w with
    | .ok (.spx x y v) =>
      match s.physical x y with
      | .ok q => if s.pixel q.1 q.2 = v then none else some q
      | .error _ => none
    | _ => none
  | _ => none

/-- The pixels changed by the `SPX` commands of the next `k` steps (R20). -/
def State.changedIn : Nat → State → List (Nat × Nat)
  | 0, _ => []
  | k + 1, s =>
    match step s with
    | .next t => s.changesPixel.toList ++ State.changedIn k t
    | _ => []

/-- The bytes of the data transactions of a flush, in order. -/
def Call.payload : Call → List Byte
  | .columnRange _ _ => []
  | .pageRange _ _ => []
  | .data bs => bs

/-- The bytes of the region's plan: pages ascending, columns ascending within a page (R121). -/
def State.planBytes (s : State) : List Byte :=
  (upTo (s.region.ymin.toNat / 8) (s.region.ymax.toNat / 8)).flatMap fun pg =>
    (upTo s.region.xmin.toNat s.region.xmax.toNat).map fun c => s.byteAt pg c

end Sys2Proof.Machine
end

