-- ==== Sys2Proof/Certificates/Slice0/Obligations.lean ====
section
/-! DEFINITION. The statements about the block, each from a rule of spec/ that its docstring names. Terms such
as `State.inv`, `State.sameBlock`, `State.answered` and `inCanvas` are in Safety.lean. -/

open Sys2Proof Sys2Proof.Machine

/-! ## Encoding -/

/-- 30_encoding.md, R53 and R57: the word of a well-formed command decodes to that command, with every
operand at every value its field admits. -/
def Obligations.DecodeOfEncodeGivesTheCommand : Prop :=
  ∀ i : Instr, i.wellFormed = true → decode (encode i) = .ok i

/-- 30_encoding.md, R53: each word has one meaning, so a word that decodes is the word of what it decodes
to, and its operands fit their fields. -/
def Obligations.EncodeOfDecodeGivesTheWord : Prop :=
  ∀ (w : Word) (i : Instr), decode w = .ok i → i.wellFormed = true ∧ encode i = w

/-- R53 with the fields of R51 and R52: a word is a command exactly when it matches that command's row, and
its operands are then the fields, read as unsigned numbers (the encoding is the spec's own, D2). -/
def Obligations.WordIsTheCommandOfTheRowItMatches : Prop :=
  ∀ w : Word,
    (w &&& 0xFE000000#32 = 0x10000000#32 ↔
      decode w = .ok (.spx (w.toNat / 2 ^ 12 % 2 ^ 12) (w.toNat % 2 ^ 12)
        (decide (w.toNat / 2 ^ 24 % 2 = 1)))) ∧
    (w &&& 0xFFFFFFFF#32 = 0x20000000#32 ↔ decode w = .ok .clr) ∧
    (w &&& 0xFFFFFF00#32 = 0x30000000#32 ↔ decode w = .ok (.seto (w.toNat % 2 ^ 8))) ∧
    (w &&& 0xFF000000#32 = 0x40000000#32 ↔
      decode w = .ok (.xfm (w.toNat / 2 ^ 12 % 2 ^ 12) (w.toNat % 2 ^ 12))) ∧
    (w &&& 0xFF000000#32 = 0x50000000#32 ↔
      decode w = .ok (.rdb (w.toNat % 2 ^ 12) (w.toNat / 2 ^ 12 % 2 ^ 12))) ∧
    (w &&& 0xFFFFFFFF#32 = 0x60000000#32 ↔ decode w = .ok .dpeek) ∧
    (w &&& 0xFFFFFFFF#32 = 0x70000000#32 ↔ decode w = .ok .dtake) ∧
    (w &&& 0xFFFFFFFF#32 = 0x80000000#32 ↔ decode w = .ok .drst) ∧
    (w &&& 0xFFFFFFFF#32 = 0x90000000#32 ↔ decode w = .ok .fplan) ∧
    (w &&& 0xFFFFFFFF#32 = 0xA0000000#32 ↔ decode w = .ok .geo)

/-- R54: the decoder refuses exactly the words R54 lists, and a step on such a word completes with
`ILLEGAL_COMMAND`, response data 0, and changes nothing (the spec's decision D6). -/
def Obligations.IllegalWordsCompleteWithIllegalCommand : Prop :=
  (∀ w : Word, (∃ e, decode w = .error e) ↔ illegalWord w) ∧
  illegalWord 0#32 ∧ illegalWord 0xFFFFFFFF#32 ∧
  ∀ (s : State) (w : Word) (rest : List HostInput),
    s.params.legal → s.inputs = .command w :: rest → illegalWord w →
    ∃ t, step s = .next t ∧ (s.setInputs rest).sameBlock t ∧ t.answered .illegalCommand 0 0 0 0

/-- 95_test_vectors.md sections 2.1 to 2.6: words written out there decode to the commands they stand for. -/
def Obligations.SpecWordsDecodeToTheirCommands : Prop :=
  decode 0x1100A014#32 = .ok (.spx 10 20 true) ∧ decode 0x10003007#32 = .ok (.spx 3 7 false) ∧
  decode 0x20000000#32 = .ok .clr ∧ decode 0x300000FF#32 = .ok (.seto 255) ∧
  decode 0x4007F03F#32 = .ok (.xfm 127 63) ∧ decode 0x5000A002#32 = .ok (.rdb 2 10) ∧
  decode 0x70000000#32 = .ok .dtake ∧ decode 0xA0000000#32 = .ok .geo ∧
  decode 0x1300A014#32 = .error (.nonZeroField 1) ∧ decode 0xB0000000#32 = .error (.reservedOpcode 11)

/-! ## The step -/

/-- R7, R24, R50: the word the host presents next, where it decodes to `i`, is run: the step is `exec i`
at the state whose remaining inputs are the rest. Nothing else is done around `exec`. -/
def Obligations.StepRunsTheDecodedCommand : Prop :=
  ∀ (s : State) (w : Word) (rest : List HostInput) (i : Instr),
    s.params.legal → s.inputs = .command w :: rest → decode w = .ok i →
    step s = exec i (s.setInputs rest)

/-- The model's choice (log 6), from R144's "nothing in it happens except in response to a call": with
nothing presented a step changes nothing. -/
def Obligations.StepWithNoInputChangesNothing : Prop :=
  ∀ s : State, s.params.legal → s.inputs = [] → step s = .next s

/-- 70_reset_and_hazards.md section 1 (`rst` as one input of the host is the model's choice, log 7): from
any state of an instance, `rst` gives the reset state, whose first `FPLAN` answers the whole panel. -/
def Obligations.RstGivesTheResetState : Prop :=
  ∀ (s : State) (rest : List HostInput), s.params.legal → s.inputs = .rst :: rest →
    ∃ t, step s = .next t ∧ t.params = s.params ∧ t.inputs = rest ∧ t.fb = s.params.fbInit ∧
      t.region.isFull s.params ∧ t.orient = s.params.orientReset ∧ t.pendingLine = true ∧
      ∃ u, exec .fplan t = .next u ∧ u.answered .ok 0 (s.params.width - 1) 0 (pages s.params - 1)

/-- R27: the state after reset, for every instance: the full encoding, so the flag is true; the framebuffer's
bytes are the instance's `FB_INIT` and the orientation its `ORIENT_RESET` (the spec's decisions D12, D11). -/
def Obligations.ResetLeavesTheStatedValues : Prop :=
  ∀ p : Params, p.legal →
    (State.resetWith p).region.xmin.toNat = 0 ∧
    (State.resetWith p).region.xmax.toNat = p.width - 1 ∧
    (State.resetWith p).region.ymin.toNat = 0 ∧
    (State.resetWith p).region.ymax.toNat = p.height - 1 ∧
    (State.resetWith p).pendingLine = true ∧
    (State.resetWith p).params = p ∧ (State.resetWith p).orient = p.orientReset ∧
    ∀ a, a < fbSize p → Memory.read (State.resetWith p).fb a = Memory.read p.fbInit a

/-- The model's choice (log 1, log 2, log 3): `State.reset` is the spec's default instance after reset, 128
by 64 (R4), with `ORIENT_RESET = 0` and every byte the free value `Config.fbInit`, whatever it is. -/
def Obligations.ResetIsTheDefaultInstance : Prop :=
  State.reset = State.resetWith State.reset.params ∧ State.reset.params.width = 128 ∧
  State.reset.params.height = 64 ∧ State.reset.orient = 0 ∧
  ∀ a, a < 1024 → Memory.read State.reset.fb a = Config.fbInit a

/-- The invariant holds after reset, in every proper instance and in the machine's own reset state. -/
def Obligations.ResetMeetsTheInvariant : Prop :=
  (∀ p : Params, proper p → (State.resetWith p).inv) ∧ State.reset.inv

/-- 10_state.md section 3, the invariant (marked derived there): every step keeps the registers in one of
the two cases, the framebuffer canonical and exactly of the instance's size, and the instance legal. -/
def Obligations.EveryStepKeepsTheInvariant : Prop :=
  ∀ s t : State, s.inv → step s = .next t → t.inv

/-- 30_encoding.md section 5 and 70_reset_and_hazards.md section 4: the block never hangs or stops. Every
step answers, consumes exactly the next input, and a command, legal or not, leaves a response whose
`pending` is the flag after its writes and whose data is 0 for every status but `OK`. -/
def Obligations.EveryStepAnswersTheHost : Prop :=
  ∀ s : State, s.inv → ∃ t, step s = .next t ∧ t.inputs = s.inputs.tail ∧
    ∀ w rest, s.inputs = .command w :: rest →
      ∃ r, t.resp = some r ∧ r.pending = t.region.pending ∧ (r.status ≠ .ok → r.data = 0)

/-- 20_memory.md section 2 (marked derived there): no command of a legal instance forms an address outside
the framebuffer, so every command completes. -/
def Obligations.EveryCommandOfALegalInstanceCompletes : Prop :=
  ∀ (i : Instr) (s : State), s.params.legal →
    ∃ t, exec i s = .next t ∧ t.inputs = s.inputs ∧ ∃ r, t.resp = some r

/-! ## The transform -/

/-- R70: the four rotations, each with its validity condition, and any other orientation value fails with
`INVALID_STATE` whatever the coordinate is. -/
def Obligations.TransformFollowsTheFourRotations : Prop :=
  ∀ (p : Params) (x y : Nat),
    transform p x y 0 = (if x < p.width ∧ y < p.height then .ok (x, y) else .error .outOfBounds) ∧
    transform p x y 1 = (if x < p.height ∧ y < p.width then .ok (p.width - y - 1, x)
      else .error .outOfBounds) ∧
    transform p x y 2 = (if x < p.width ∧ y < p.height then .ok (p.width - x - 1, p.height - y - 1)
      else .error .outOfBounds) ∧
    transform p x y 3 = (if x < p.height ∧ y < p.width then .ok (y, p.height - x - 1)
      else .error .outOfBounds) ∧
    ∀ o : BitVec 8, 3 < o.toNat → transform p x y o = .error .invalidState

/-- 40_transform.md section 1 (marked derived there): for each orientation the transform is defined exactly
on the canvas and is a bijection from it onto the panel. -/
def Obligations.TransformIsABijectionOntoThePanel : Prop :=
  ∀ (p : Params) (o : BitVec 2),
    (∀ x y, (∃ q, transform p x y (o.setWidth 8) = .ok q) ↔ inCanvas p o x y) ∧
    (∀ x y q, transform p x y (o.setWidth 8) = .ok q → q.1 < p.width ∧ q.2 < p.height) ∧
    ∀ px py, px < p.width → py < p.height →
      ∃ x y, transform p x y (o.setWidth 8) = .ok (px, py) ∧
        ∀ x' y', transform p x' y' (o.setWidth 8) = .ok (px, py) → x' = x ∧ y' = y

/-- R72: `XFM` answers the physical coordinate in the two low lanes, orientation by orientation, or
`OUT_OF_BOUNDS` outside the canvas; it changes nothing. -/
def Obligations.XfmAnswersThePhysicalCoordinate : Prop :=
  ∀ (s : State) (x y : Nat), s.params.legal →
    ∃ t, exec (.xfm x y) s = .next t ∧ s.sameBlock t ∧
      (¬ inCanvas s.params s.orient x y → t.answered .outOfBounds 0 0 0 0) ∧
      (inCanvas s.params s.orient x y →
        (s.orient = 0 → t.answered .ok 0 0 x y) ∧
        (s.orient = 1 → t.answered .ok 0 0 (s.params.width - y - 1) x) ∧
        (s.orient = 2 → t.answered .ok 0 0 (s.params.width - x - 1) (s.params.height - y - 1)) ∧
        (s.orient = 3 → t.answered .ok 0 0 y (s.params.height - x - 1)))

/-! ## Pixel write and clear -/

/-- R80: inside the canvas `SPX` completes with `OK` and data 0; of the byte at the pixel's address only the
addressed bit takes the value `v`, every other byte is unchanged, and the registers are widened exactly
where the bit changed; the constants, `ORIENT` and the inputs are unchanged. Outside the canvas it
completes with `OUT_OF_BOUNDS` and changes nothing. -/
def Obligations.SpxWritesOneBitAndWidens : Prop :=
  ∀ (s : State) (x y : Nat) (v : Bool), s.params.legal → Memory.wf s.fb →
    (¬ inCanvas s.params s.orient x y →
      ∃ t, exec (.spx x y v) s = .next t ∧ s.sameBlock t ∧ t.answered .outOfBounds 0 0 0 0) ∧
    (inCanvas s.params s.orient x y →
      ∃ px py t, s.physical x y = .ok (px, py) ∧ exec (.spx x y v) s = .next t ∧
        t.answered .ok 0 0 0 0 ∧
        t.params = s.params ∧ t.orient = s.orient ∧ t.inputs = s.inputs ∧
        (∀ a, a ≠ py / 8 * s.params.width + px → Memory.read t.fb a = Memory.read s.fb a) ∧
        (∀ k, k < 8 → (Memory.read t.fb (py / 8 * s.params.width + px)).getLsbD k =
          if k = py % 8 then v
          else (Memory.read s.fb (py / 8 * s.params.width + px)).getLsbD k) ∧
        (s.pixel px py = v → t.fb = s.fb ∧ t.region = s.region) ∧
        (s.pixel px py ≠ v → t.pendingLine = true ∧ t.region.xmin.toNat = min s.region.xmin.toNat px ∧
          t.region.xmax.toNat = max s.region.xmax.toNat px ∧
          t.region.ymin.toNat = min s.region.ymin.toNat py ∧
          t.region.ymax.toNat = max s.region.ymax.toNat py))

/-- R83: an `SPX` whose target bit already equals `v` writes nothing and completes with `OK` (and where the
tracker is `EMPTY` a following flush sends nothing); the second of two equal `SPX` changes nothing; and a
pixel turned on reads on, then turned off reads off and lies in the dirty region. -/
def Obligations.SpxOfTheSameValueChangesNothing : Prop :=
  ∀ (s : State) (x y px py : Nat), s.params.legal → Memory.wf s.fb →
    s.physical x y = .ok (px, py) →
    (∀ v, s.pixel px py = v → ∃ t, exec (.spx x y v) s = .next t ∧ s.sameBlock t ∧
      t.answered .ok 0 0 0 0 ∧
      (s.pendingLine = false → ∀ as, ∃ f, flush as t = some f ∧ f.status = .ok ∧ f.calls = [])) ∧
    (∀ v t, exec (.spx x y v) s = .next t → ∃ u, exec (.spx x y v) t = .next u ∧ t.sameBlock u) ∧
    (∀ t, exec (.spx x y true) s = .next t → t.pixel px py = true ∧
      ∃ u, exec (.spx x y false) t = .next u ∧ u.pixel px py = false ∧ u.region.covers px py)

/-- 95_test_vectors.md section 4, property 5: after `SPX x, y, v` completed with `OK`, `RDB` of the pixel's
page and column answers a byte whose bit `py mod 8` is `v`. -/
def Obligations.RdbAfterSpxReadsTheWrittenBit : Prop :=
  ∀ (s : State) (x y px py : Nat) (v : Bool), s.params.legal → Memory.wf s.fb →
    s.physical x y = .ok (px, py) →
    ∃ t u r, exec (.spx x y v) s = .next t ∧ exec (.rdb (py / 8) px) t = .next u ∧
      u.resp = some r ∧ r.status = .ok ∧ r.data.getLsbD (py % 8) = v

/-- R82: `CLR` zeroes every byte and makes the region the full panel, whatever was there; `ORIENT`, the
constants and the inputs are unchanged, and its status is always `OK`. -/
def Obligations.ClrZeroesEveryByteAndMarksFull : Prop :=
  ∀ s : State, s.params.legal →
    ∃ t, exec .clr s = .next t ∧ t.answered .ok 0 0 0 0 ∧
      t.params = s.params ∧ t.orient = s.orient ∧ t.inputs = s.inputs ∧
      (∀ a, a < fbSize s.params → Memory.read t.fb a = 0) ∧
      (∀ a, fbSize s.params ≤ a → Memory.read t.fb a = Memory.read s.fb a) ∧
      t.region.isFull s.params ∧ t.pendingLine = true

/-! ## Dirty region -/

/-- R90: `DPEEK` answers the four registers as they are and changes nothing (the spec's decision D13). -/
def Obligations.DpeekAnswersTheRegisters : Prop :=
  ∀ s : State, ∃ t, exec .dpeek s = .next t ∧ s.sameBlock t ∧
    t.answered .ok s.region.xmin.toNat s.region.xmax.toNat s.region.ymin.toNat s.region.ymax.toNat

/-- R91: `DTAKE` answers the registers as they were and leaves the empty encoding, so the flag is false,
in the response too; `FB`, `ORIENT`, the constants and the inputs are unchanged. -/
def Obligations.DtakeAnswersTheRegistersAndEmpties : Prop :=
  ∀ s : State, s.params.legal → ∃ t, exec .dtake s = .next t ∧
    t.answered .ok s.region.xmin.toNat s.region.xmax.toNat s.region.ymin.toNat s.region.ymax.toNat ∧
    t.region.isEmpty s.params ∧ t.pendingLine = false ∧
    t.fb = s.fb ∧ t.orient = s.orient ∧ t.params = s.params ∧ t.inputs = s.inputs

/-- R92: `DRST` leaves the empty encoding in any state; nothing else changes (the spec's decision D13). -/
def Obligations.DrstEmptiesTheTracker : Prop :=
  ∀ s : State, s.params.legal → ∃ t, exec .drst s = .next t ∧ t.answered .ok 0 0 0 0 ∧
    t.region.isEmpty s.params ∧ t.pendingLine = false ∧
    t.fb = s.fb ∧ t.orient = s.orient ∧ t.params = s.params ∧ t.inputs = s.inputs

/-- R93: `FPLAN` answers columns and `y / 8` pages and changes nothing (the spec's decision D14); where the
invariant holds, a pending plan is a range of pages and columns of the panel, and an empty one reads
`(WIDTH-1, 0, PAGES-1, 0)`. -/
def Obligations.FplanAnswersThePlan : Prop :=
  (∀ s : State, ∃ t, exec .fplan s = .next t ∧ s.sameBlock t ∧
    t.answered .ok s.region.xmin.toNat s.region.xmax.toNat
      (s.region.ymin.toNat / 8) (s.region.ymax.toNat / 8)) ∧
  ∀ s : State, s.inv → ∃ t, exec .fplan s = .next t ∧
    (s.pendingLine = false → t.answered .ok (s.params.width - 1) 0 (pages s.params - 1) 0) ∧
    (s.pendingLine = true → ∃ c0 c1 p0 p1, t.answered .ok c0 c1 p0 p1 ∧
      c0 ≤ c1 ∧ c1 < s.params.width ∧ p0 ≤ p1 ∧ p1 < pages s.params)

/-- R81: `Widen` of a pixel of the panel is the per-axis minimum and maximum (the spec's decision D29). It
never narrows; from the empty encoding it gives the one pixel, from the full encoding nothing new, and
from a rectangle the smallest rectangle that contains it and the pixel. -/
def Obligations.WidenGivesTheSmallestRectangle : Prop :=
  ∀ (p : Params) (r : Region) (px py : Nat), p.legal → px < p.width → py < p.height →
    ((r.widen px py).xmin.toNat = min r.xmin.toNat px ∧
      (r.widen px py).xmax.toNat = max r.xmax.toNat px ∧
      (r.widen px py).ymin.toNat = min r.ymin.toNat py ∧
      (r.widen px py).ymax.toNat = max r.ymax.toNat py) ∧
    (∀ qx qy, r.covers qx qy → (r.widen px py).covers qx qy) ∧
    (r.isEmpty p → (r.widen px py).xmin.toNat = px ∧ (r.widen px py).xmax.toNat = px ∧
      (r.widen px py).ymin.toNat = py ∧ (r.widen px py).ymax.toNat = py) ∧
    (r.isFull p → r.widen px py = r) ∧
    (r.isRect p → (r.widen px py).isRect p ∧ (r.widen px py).covers px py ∧
      ∀ r' : Region, r'.covers px py → r'.covers r.xmin.toNat r.ymin.toNat →
        r'.covers r.xmax.toNat r.ymax.toNat →
        r'.covers (r.widen px py).xmin.toNat (r.widen px py).ymin.toNat ∧
        r'.covers (r.widen px py).xmax.toNat (r.widen px py).ymax.toNat)

/-- R18: the tracker's state machine, for each command that completes with `OK`, and for reset. -/
def Obligations.TrackerFollowsItsTransitions : Prop :=
  (∀ p : Params, p.legal → (State.resetWith p).region.tracker = .pending ∧
    (State.resetWith p).region.isFull p) ∧
  ∀ (i : Instr) (s t : State) (r : Response), s.inv → exec i s = .next t → t.resp = some r →
    r.status = .ok →
    match i with
    | .clr => t.region.tracker = .pending ∧ t.region.isFull s.params
    | .spx x y v => ∃ px py, s.physical x y = .ok (px, py) ∧
        (s.pixel px py = v → t.region = s.region) ∧
        (s.pixel px py ≠ v → t.region.tracker = .pending ∧
          (s.region.tracker = .empty →
            t.region.xmin.toNat = px ∧ t.region.xmax.toNat = px ∧
            t.region.ymin.toNat = py ∧ t.region.ymax.toNat = py) ∧
          (s.region.tracker = .pending →
            t.region.xmin.toNat = min s.region.xmin.toNat px ∧
            t.region.xmax.toNat = max s.region.xmax.toNat px ∧
            t.region.ymin.toNat = min s.region.ymin.toNat py ∧
            t.region.ymax.toNat = max s.region.ymax.toNat py))
    | .dtake => t.region.tracker = .empty ∧ t.region.isEmpty s.params
    | .drst => t.region.tracker = .empty ∧ t.region.isEmpty s.params
    | _ => t.region = s.region

/-- 95_test_vectors.md section 4, property 2: where the invariant holds, `pending` is 0 exactly in the
empty encoding, and 1 exactly for a rectangle of the panel. -/
def Obligations.PendingIsZeroExactlyForTheEmptyEncoding : Prop :=
  ∀ s : State, s.inv →
    (s.pendingLine = false ↔ s.region.isEmpty s.params) ∧
    (s.pendingLine = true ↔ s.region.isRect s.params)

/-! ## Scan-out and configuration -/

/-- R100: `RDB` answers the byte at `p * WIDTH + c`, whose bit `k` is the physical pixel `(c, 8p + k)`, or
`OUT_OF_BOUNDS` where the page or the column is out of range (the spec's decision D15); it changes
nothing. -/
def Obligations.RdbAnswersTheByte : Prop :=
  ∀ (s : State) (pg c : Nat),
    (pages s.params ≤ pg ∨ s.params.width ≤ c →
      ∃ t, exec (.rdb pg c) s = .next t ∧ s.sameBlock t ∧ t.answered .outOfBounds 0 0 0 0) ∧
    (pg < pages s.params → c < s.params.width →
      ∃ t, exec (.rdb pg c) s = .next t ∧ s.sameBlock t ∧
        t.answered .ok 0 0 0 (Memory.read s.fb (pg * s.params.width + c)).toNat ∧
        ∀ k, k < 8 →
          (Memory.read s.fb (pg * s.params.width + c)).getLsbD k = s.pixel c (8 * pg + k))

/-- R110: `SETO r` stores `r` and touches neither `FB` nor the region, or completes with `INVALID_ARGUMENT`
where `r > 3` and changes nothing (the spec's decision D10). -/
def Obligations.SetoSetsTheOrientation : Prop :=
  ∀ (s : State) (r : Nat),
    (r ≤ 3 → ∃ t, exec (.seto r) s = .next t ∧ t.answered .ok 0 0 0 0 ∧ t.orient.toNat = r ∧
      t.fb = s.fb ∧ t.region = s.region ∧ t.params = s.params ∧ t.inputs = s.inputs) ∧
    (3 < r → ∃ t, exec (.seto r) s = .next t ∧ t.answered .invalidArgument 0 0 0 0 ∧
      s.sameBlock t)

/-- R111: `GEO` answers the physical constants and the orientation and changes nothing (the spec's decision
D23). -/
def Obligations.GeoAnswersTheGeometry : Prop :=
  ∀ s : State, s.params.legal → ∃ t, exec .geo s = .next t ∧ s.sameBlock t ∧
    t.answered .ok s.params.width s.params.height 0 s.orient.toNat

/-! ## Rules about the whole machine -/

/-- R142: a command that completes with any status other than `OK`, an illegal word too, has changed no byte
of `FB`, no dirty-region register and not `ORIENT`. -/
def Obligations.FailedCommandsChangeNothing : Prop :=
  ∀ (s t : State) (w : Word) (rest : List HostInput) (r : Response),
    s.inputs = .command w :: rest → step s = .next t → t.resp = some r → r.status ≠ .ok →
    t.fb = s.fb ∧ t.region = s.region ∧ t.orient = s.orient ∧ t.params = s.params ∧ t.inputs = rest

/-- R141: every status has exactly the causes listed, and `INVALID_STATE` and `IO_ERROR` are never
produced. -/
def Obligations.EveryStatusHasItsCauses : Prop :=
  (∀ (i : Instr) (s t : State) (r : Response), exec i s = .next t → t.resp = some r →
    (r.status = .outOfBounds ↔
      match i with
      | .spx x y _ => ¬ inCanvas s.params s.orient x y
      | .xfm x y => ¬ inCanvas s.params s.orient x y
      | .rdb pg c => pages s.params ≤ pg ∨ s.params.width ≤ c
      | _ => False) ∧
    (r.status = .invalidArgument ↔
      match i with
      | .seto n => 3 < n
      | _ => False) ∧
    r.status ≠ .invalidState ∧ r.status ≠ .ioError ∧ r.status ≠ .illegalCommand) ∧
  ∀ (s t : State) (w : Word) (rest : List HostInput) (r : Response),
    s.inputs = .command w :: rest → step s = .next t → t.resp = some r →
    (r.status = .illegalCommand ↔ illegalWord w)

/-- R147: the command after a failed command executes exactly as if the failed one had never been sent. -/
def Obligations.CommandAfterAFailedOneRunsAsIfItWereAlone : Prop :=
  ∀ (i j : Instr) (s t : State) (r : Response), exec i s = .next t → t.resp = some r →
    r.status ≠ .ok → exec j t = exec j s

/-- R37: which commands change no state, that `DTAKE` is a read that empties the tracker, and that every
command repeated changes nothing more. -/
def Obligations.RepeatedCommandsChangeNothingMore : Prop :=
  (∀ (i : Instr) (s t : State), exec i s = .next t →
    match i with
    | .rdb _ _ => s.sameBlock t
    | .xfm _ _ => s.sameBlock t
    | .dpeek => s.sameBlock t
    | .fplan => s.sameBlock t
    | .geo => s.sameBlock t
    | .dtake => s.params.legal → t.region.isEmpty s.params ∧
        t.answered .ok s.region.xmin.toNat s.region.xmax.toNat s.region.ymin.toNat s.region.ymax.toNat
    | _ => True) ∧
  ∀ (i : Instr) (s t u : State), Memory.wf s.fb → exec i s = .next t → exec i t = .next u →
    t.sameBlock u

/-- The frame of all ten commands, by what each may write (20_memory.md section 2, 10_state.md sections 3
and 4): the constants and the host's inputs never change; `FB` changes only by `SPX` and `CLR`, the
registers only by `SPX`, `CLR`, `DTAKE` and `DRST`, and `ORIENT` only by `SETO`. -/
def Obligations.OnlyTheNamedCommandsWriteState : Prop :=
  ∀ (i : Instr) (s t : State), exec i s = .next t →
    t.params = s.params ∧ t.inputs = s.inputs ∧
    (t.fb = s.fb ∨ i = .clr ∨ ∃ x y v, i = .spx x y v) ∧
    (t.region = s.region ∨ i = .clr ∨ i = .dtake ∨ i = .drst ∨ ∃ x y v, i = .spx x y v) ∧
    (t.orient = s.orient ∨ ∃ r, i = .seto r)

/-- 10_state.md section 4: no step, a reset too, changes `WIDTH`, `HEIGHT` or the reset parameters. -/
def Obligations.NoStepChangesTheInstance : Prop :=
  ∀ s t : State, step s = .next t → t.params = s.params

/-- 40_transform.md section 1: a command other than `SPX` and `XFM`, which transform, and `SETO` and `GEO`,
which write and report the register, does the same under every orientation. -/
def Obligations.OtherCommandsIgnoreTheOrientation : Prop :=
  ∀ (i : Instr) (s t : State) (o : BitVec 2),
    (∀ x y v, i ≠ .spx x y v) → (∀ x y, i ≠ .xfm x y) → (∀ r, i ≠ .seto r) → i ≠ .geo →
    exec i s = .next t → exec i (s.setOrient o) = .next (t.setOrient o)

/-- 10_state.md section 5: every bit that can influence a response is in the block's state, so neither what
the response port last carried nor what the host presents later has any influence. -/
def Obligations.ResponsesDependOnTheBlockStateAlone : Prop :=
  ∀ (i : Instr) (s s' t : State), s'.params = s.params → s'.fb = s.fb → s'.region = s.region →
    s'.orient = s.orient → exec i s = .next t →
    ∃ t', exec i s' = .next t' ∧ t'.resp = t.resp ∧ t'.fb = t.fb ∧ t'.region = t.region ∧
      t'.orient = t.orient ∧ t'.params = t.params ∧ t'.inputs = s'.inputs

/-- 10_state.md section 2 and 20_memory.md section 1 (marked derived there): every physical pixel has
exactly one bit of the framebuffer and each bit belongs to exactly one pixel. -/
def Obligations.PixelsAndBitsCorrespondOneToOne : Prop :=
  ∀ p : Params, p.legal →
    (∀ px py, px < p.width → py < p.height → pixelAddr p px py < fbSize p ∧ pixelBit py < 8) ∧
    (∀ px py qx qy, px < p.width → py < p.height → qx < p.width → qy < p.height →
      pixelAddr p px py = pixelAddr p qx qy → pixelBit py = pixelBit qy → px = qx ∧ py = qy) ∧
    ∀ a k, a < fbSize p → k < 8 →
      ∃ px py, px < p.width ∧ py < p.height ∧ pixelAddr p px py = a ∧ pixelBit py = k

/-- 10_state.md section 3, what a flush relies on (marked derived there): over any run without `DTAKE`,
`DRST` and `rst`, every byte that differs from the start lies in the final flush plan. -/
def Obligations.FlushPlanCoversEveryChangedByte : Prop :=
  ∀ (k : Nat) (s t : State), s.inv → Host.Core.run Sys2Proof.core k s = .next t →
    (∀ h ∈ s.inputs.take k, h.restartsTracker = false) →
    ∀ pg c, pg < pages s.params → c < s.params.width →
      t.byteAt pg c ≠ s.byteAt pg c → t.region.plans pg c

/-- 10_state.md section 3, what the region means (marked derived there): over any run from the empty
encoding without `DTAKE`, `DRST`, `rst` and `CLR`, the region is empty where no `SPX` changed a bit, and
otherwise the smallest rectangle that contains every pixel an `SPX` changed. -/
def Obligations.RegionIsTheSmallestRectangleOfTheChanges : Prop :=
  ∀ (k : Nat) (s t : State), s.inv → s.region.isEmpty s.params →
    Host.Core.run Sys2Proof.core k s = .next t →
    (∀ h ∈ s.inputs.take k, h.restartsTracker = false ∧ h.clears = false) →
    (s.changedIn k = [] → t.region.isEmpty t.params) ∧
    (s.changedIn k ≠ [] → t.region.isRect t.params ∧
      (∀ q ∈ s.changedIn k, t.region.covers q.1 q.2) ∧
      ∀ x0 x1 y0 y1, (∀ q ∈ s.changedIn k, x0 ≤ q.1 ∧ q.1 ≤ x1 ∧ y0 ≤ q.2 ∧ q.2 ≤ y1) →
        x0 ≤ t.region.xmin.toNat ∧ t.region.xmax.toNat ≤ x1 ∧
        y0 ≤ t.region.ymin.toNat ∧ t.region.ymax.toNat ≤ y1)

/-- 10_state.md section 3: the full region, which reset and `CLR` leave, stays full over any run without
`DTAKE` and `DRST`. -/
def Obligations.FullRegionStaysFullUntilEmptied : Prop :=
  ∀ (k : Nat) (s t : State), s.inv → s.region.isFull s.params →
    Host.Core.run Sys2Proof.core k s = .next t →
    (∀ h ∈ s.inputs.take k, h.restartsTracker = true → h = .rst) →
    t.region.isFull t.params

/-! ## The host's flush (outside the block) -/

/-- R122: a flush that finds the tracker `EMPTY` sends nothing, changes nothing and returns `OK`. -/
def Obligations.FlushOfAnEmptyTrackerSendsNothing : Prop :=
  ∀ (s : State) (as : List Answer), s.pendingLine = false →
    ∃ f, flush as s = some f ∧ f.status = .ok ∧ f.calls = [] ∧ s.sameBlock f.block

/-- 50_boundary.md section 2: a flush that fails leaves the block exactly as it found it. The transport as a
list of answers is the model's choice (log 14). -/
def Obligations.FailedFlushLeavesTheBlockAlone : Prop :=
  ∀ (s : State) (as : List Answer) (f : FlushEnd), flush as s = some f → f.status ≠ .ok →
    f.status = .ioError ∧ s.sameBlock f.block

/-- 50_boundary.md section 2: a successful flush of a pending region sends the column range, the page range
and then, in data transactions only, exactly the bytes of the plan, pages and columns ascending (the spec's
decision D21), leaves every byte alone and the tracker at the empty encoding. The transport as a list of
answers, and an answer that accepts more bytes than were offered meaning all of them, are the model's
choice (log 14). -/
def Obligations.SuccessfulFlushSendsThePlanAndEmpties : Prop :=
  ∀ (s : State) (as : List Answer) (f : FlushEnd), s.inv → s.pendingLine = true →
    flush as s = some f → f.status = .ok →
    f.block.region.isEmpty s.params ∧ f.block.fb = s.fb ∧ f.block.orient = s.orient ∧
    f.block.params = s.params ∧ f.block.inputs = s.inputs ∧
    ∃ sent : List (List Byte),
      f.calls = .columnRange s.region.xmin.toNat s.region.xmax.toNat ::
        .pageRange (s.region.ymin.toNat / 8) (s.region.ymax.toNat / 8) :: sent.map .data ∧
      sent.flatten = s.planBytes

/-- 50_boundary.md section 2: over a transport that accepts each slice whole, a pending flush succeeds with
one data-send of `c1 - c0 + 1` bytes for each of the `p1 - p0 + 1` pages. The transport as a list of answers,
and an answer that accepts more bytes than were offered meaning all of them, are the model's choice
(log 14). -/
def Obligations.FlushOverAGoodTransportSendsOneSlicePerPage : Prop :=
  ∀ (s : State) (n k : Nat), s.inv → s.pendingLine = true →
    s.region.xmax.toNat - s.region.xmin.toNat + 1 ≤ k →
    s.region.ymax.toNat / 8 - s.region.ymin.toNat / 8 + 3 ≤ n →
    ∃ f, flush (List.replicate n ⟨k, true⟩) s = some f ∧ f.status = .ok ∧
      ∃ slices : List (List Byte),
        f.calls.drop 2 = slices.map .data ∧
        slices.length = s.region.ymax.toNat / 8 - s.region.ymin.toNat / 8 + 1 ∧
        ∀ b ∈ slices, b.length = s.region.xmax.toNat - s.region.xmin.toNat + 1
end

