-- ==== Sys2Proof/Laws/Decode.lean ====
section
/-! SUPPORT. The decoder and the encoder in plain arithmetic on the word's number: what a row's mask tests,
what a field reads, and the number of an encoded word. -/

namespace Sys2Proof

/-- A mask of the bits from `k` up compares the word's upper part. -/
theorem and_high_eq_iff (w : Word) {k p : Nat} (hp : p * 2 ^ k < 2 ^ 32) :
    w &&& (BitVec.allOnes 32 <<< k) = BitVec.ofNat 32 (p * 2 ^ k) ↔ w.toNat / 2 ^ k = p := by
  have h1 : w &&& (BitVec.allOnes 32 <<< k) = (w >>> k) <<< k := by
    ext i hi
    simp only [BitVec.getElem_and, BitVec.getElem_shiftLeft, BitVec.getElem_allOnes]
    by_cases hik : i < k
    · simp [hik]
    · have : k + (i - k) = i := by omega
      simp [hik, this, ← BitVec.getLsbD_eq_getElem]
  have h2 : ((w >>> k) <<< k).toNat = w.toNat / 2 ^ k * 2 ^ k := by
    have hle : w.toNat / 2 ^ k * 2 ^ k ≤ w.toNat := Nat.div_mul_le_self _ _
    rw [BitVec.toNat_shiftLeft, BitVec.toNat_ushiftRight, Nat.shiftRight_eq_div_pow,
      Nat.shiftLeft_eq, Nat.mod_eq_of_lt (by have := w.isLt; omega)]
  rw [h1, ← BitVec.toNat_inj, h2, BitVec.toNat_ofNat, Nat.mod_eq_of_lt hp]
  exact Nat.mul_left_inj (by positivity)

theorem accepts_high (r : Row) (w : Word) {k p : Nat} (hm : r.mask = BitVec.allOnes 32 <<< k)
    (hr : r.pattern = BitVec.ofNat 32 (p * 2 ^ k)) (hp : p * 2 ^ k < 2 ^ 32) :
    r.accepts w = decide (w.toNat / 2 ^ k = p) := by
  rw [Row.accepts, hm, hr, Bool.eq_iff_iff, beq_iff_eq, decide_eq_true_eq]
  exact and_high_eq_iff w hp

theorem fieldX_eq (w : Word) : fieldX w = w.toNat / 4096 % 4096 := by
  simp [fieldX, Nat.shiftRight_eq_div_pow]

theorem fieldY_eq (w : Word) : fieldY w = w.toNat % 4096 := by
  simp [fieldY]

theorem fieldR_eq (w : Word) : fieldR w = w.toNat % 256 := by
  simp [fieldR]

theorem fieldV_eq (w : Word) : fieldV w = decide (w.toNat / 16777216 % 2 = 1) := by
  simp [fieldV, BitVec.getLsbD, Nat.testBit_eq_decide_div_mod_eq]

theorem fieldOp_eq (w : Word) : fieldOp w = w.toNat / 268435456 := by
  have := w.isLt
  simp only [fieldOp, BitVec.extractLsb'_toNat, Nat.shiftRight_eq_div_pow]
  omega

/-- The decoder row by row, in arithmetic on the word's number (R53). -/
theorem decode_eq (w : Word) : decode w =
    if w.toNat / 2 ^ 25 = 8 then
      .ok (.spx (w.toNat / 4096 % 4096) (w.toNat % 4096) (decide (w.toNat / 16777216 % 2 = 1)))
    else if w.toNat / 2 ^ 0 = 0x20000000 then .ok .clr
    else if w.toNat / 2 ^ 8 = 0x300000 then .ok (.seto (w.toNat % 256))
    else if w.toNat / 2 ^ 24 = 0x40 then .ok (.xfm (w.toNat / 4096 % 4096) (w.toNat % 4096))
    else if w.toNat / 2 ^ 24 = 0x50 then .ok (.rdb (w.toNat % 4096) (w.toNat / 4096 % 4096))
    else if w.toNat / 2 ^ 0 = 0x60000000 then .ok .dpeek
    else if w.toNat / 2 ^ 0 = 0x70000000 then .ok .dtake
    else if w.toNat / 2 ^ 0 = 0x80000000 then .ok .drst
    else if w.toNat / 2 ^ 0 = 0x90000000 then .ok .fplan
    else if w.toNat / 2 ^ 0 = 0xA0000000 then .ok .geo
    else .error (rejectWord w) := by
  simp only [decode, opcodeRows, scanRows, fieldX_eq, fieldY_eq, fieldR_eq, fieldV_eq]
  rw [accepts_high _ w (k := 25) (p := 8) (by decide) (by decide) (by decide),
    accepts_high _ w (k := 0) (p := 0x20000000) (by decide) (by decide) (by decide),
    accepts_high _ w (k := 8) (p := 0x300000) (by decide) (by decide) (by decide),
    accepts_high _ w (k := 24) (p := 0x40) (by decide) (by decide) (by decide),
    accepts_high _ w (k := 24) (p := 0x50) (by decide) (by decide) (by decide),
    accepts_high _ w (k := 0) (p := 0x60000000) (by decide) (by decide) (by decide),
    accepts_high _ w (k := 0) (p := 0x70000000) (by decide) (by decide) (by decide),
    accepts_high _ w (k := 0) (p := 0x80000000) (by decide) (by decide) (by decide),
    accepts_high _ w (k := 0) (p := 0x90000000) (by decide) (by decide) (by decide),
    accepts_high _ w (k := 0) (p := 0xA0000000) (by decide) (by decide) (by decide)]
  simp only [decide_eq_true_eq]

theorem or_eq_add {a b i : Nat} (h : b < 2 ^ i) : a * 2 ^ i ||| b = a * 2 ^ i + b := by
  rw [← Nat.shiftLeft_eq, Nat.shiftLeft_add_eq_or_of_lt h]

/-- The number of a format C word: its fields do not overlap (R51). -/
theorem wordC_toNat {k x y : Nat} (hk : k < 256) (hx : x < 4096) (hy : y < 4096) :
    (wordC (BitVec.ofNat 32 (k * 2 ^ 24)) x y).toNat = k * 2 ^ 24 + x * 2 ^ 12 + y := by
  have h1 : k * 2 ^ 24 ||| x * 2 ^ 12 = k * 2 ^ 24 + x * 2 ^ 12 := or_eq_add (by omega)
  have h2 : (k * 2 ^ 12 + x) * 2 ^ 12 ||| y = (k * 2 ^ 12 + x) * 2 ^ 12 + y := or_eq_add (by omega)
  have h3 : k * 2 ^ 24 + x * 2 ^ 12 = (k * 2 ^ 12 + x) * 2 ^ 12 := by ring
  simp only [wordC, BitVec.toNat_or, BitVec.toNat_shiftLeft, BitVec.toNat_ofNat, Nat.shiftLeft_eq]
  rw [Nat.mod_eq_of_lt (a := k * 2 ^ 24) (by omega), Nat.mod_eq_of_lt (a := y) (by omega),
    Nat.mod_eq_of_lt (a := x) (by omega), Nat.mod_eq_of_lt (a := x * 2 ^ 12) (by omega), h1, h3, h2]

/-- The number of a format P word (R51). -/
theorem wordP_toNat {v : Bool} {x y : Nat} (hx : x < 4096) (hy : y < 4096) :
    (wordP 0x10000000#32 v x y).toNat = 0x10000000 + v.toNat * 2 ^ 24 + x * 2 ^ 12 + y := by
  cases v
  · exact wordC_toNat (k := 16) (by omega) hx hy
  · exact wordC_toNat (k := 17) (by omega) hx hy

/-- The number of a format O word (R51). -/
theorem wordO_toNat {r : Nat} (hr : r < 256) : (wordO 0x30000000#32 r).toNat = 0x30000000 + r := by
  have h : 0x300000 * 2 ^ 8 ||| r = 0x300000 * 2 ^ 8 + r := or_eq_add (by omega)
  simp only [wordO, BitVec.toNat_or, BitVec.toNat_ofNat]
  rw [Nat.mod_eq_of_lt (a := r) (by omega)]
  exact h

end Sys2Proof
end

