-- ==== Sys2Proof/Laws/Memory.lean ====
section
/-! SUPPORT. The laws of the framebuffer list (Machine/Memory.lean): every operation keeps the canonical
form and the bound on addresses, what a read gives after each operation, and that equal memories are
equal data. -/

namespace Sys2Proof.Machine

theorem wf_nil : Memory.wf [] := by simp [Memory.wf]

theorem wf_cons {c : Host.Cell} {m : List Host.Cell} :
    Memory.wf (c :: m) ↔ (∀ d ∈ m, c.1 < d.1) ∧ c.2 ≠ Memory.unlisted ∧ Memory.wf m := by
  simp only [Memory.wf, List.pairwise_cons, List.forall_mem_cons]
  tauto

@[simp] theorem read_nil (a : Nat) : Memory.read [] a = Memory.unlisted := rfl

theorem read_cons (c : Host.Cell) (m : List Host.Cell) (a : Nat) :
    Memory.read (c :: m) a = if a = c.1 then c.2 else Memory.read m a := rfl

theorem read_not_listed {m : List Host.Cell} {a : Nat} (h : ∀ c ∈ m, c.1 ≠ a) :
    Memory.read m a = Memory.unlisted := by
  induction m with
  | nil => rfl
  | cons c m ih =>
    rw [read_cons, if_neg (fun e => h c (by simp) e.symm)]
    exact ih fun d hd => h d (by simp [hd])

/-- An address below every listed one reads as an unlisted one. -/
theorem read_before {m : List Host.Cell} {a : Nat} (h : ∀ c ∈ m, a < c.1) :
    Memory.read m a = Memory.unlisted :=
  read_not_listed fun c hc e => Nat.lt_irrefl a (e ▸ h c hc)

/-- An address outside the bound reads as an unlisted one. -/
theorem read_beyond {m : List Host.Cell} {n a : Nat} (h : Memory.below n m) (ha : n ≤ a) :
    Memory.read m a = Memory.unlisted :=
  read_not_listed fun c hc e => absurd (e ▸ h c hc) (Nat.not_lt.mpr ha)

theorem mem_push {a : Nat} {v : Byte} {m : List Host.Cell} {c : Host.Cell}
    (h : c ∈ Memory.push a v m) : c = (a, v) ∨ c ∈ m := by
  unfold Memory.push at h
  split at h
  · exact .inr h
  · simpa using h

theorem push_wf {a : Nat} {v : Byte} {m : List Host.Cell} (hm : Memory.wf m)
    (ha : ∀ c ∈ m, a < c.1) : Memory.wf (Memory.push a v m) := by
  unfold Memory.push
  split
  · exact hm
  · exact wf_cons.mpr ⟨ha, ‹_›, hm⟩

theorem read_push_same {a : Nat} {v : Byte} {m : List Host.Cell} (ha : ∀ c ∈ m, a < c.1) :
    Memory.read (Memory.push a v m) a = v := by
  unfold Memory.push
  split
  · rw [read_before ha, ‹v = _›]
  · simp [read_cons]

theorem read_push_other {a b : Nat} (v : Byte) (m : List Host.Cell) (h : b ≠ a) :
    Memory.read (Memory.push a v m) b = Memory.read m b := by
  unfold Memory.push
  split
  · rfl
  · simp [read_cons, h]

theorem mem_write {m : List Host.Cell} {a : Nat} {v : Byte} {c : Host.Cell}
    (h : c ∈ Memory.write m a v) : c = (a, v) ∨ c ∈ m := by
  induction m with
  | nil => exact mem_push h
  | cons d m ih =>
    rw [Memory.write] at h
    split at h
    · exact mem_push h
    · split at h
      · exact (mem_push h).imp_right fun hc => by simp [hc]
      · rcases List.mem_cons.mp h with rfl | h
        · simp
        · exact (ih h).imp_right fun hc => by simp [hc]

/-- A write keeps the canonical form. -/
theorem write_wf {m : List Host.Cell} (hm : Memory.wf m) (a : Nat) (v : Byte) :
    Memory.wf (Memory.write m a v) := by
  induction m with
  | nil => exact push_wf wf_nil (by simp)
  | cons c m ih =>
    obtain ⟨hlt, hv, hm'⟩ := wf_cons.mp hm
    rw [Memory.write]
    split
    · rename_i hac
      refine push_wf hm ?_
      simp only [List.forall_mem_cons]
      exact ⟨hac, fun d hd => Nat.lt_trans hac (hlt d hd)⟩
    · split
      · rename_i hac
        exact push_wf hm' fun d hd => hac ▸ hlt d hd
      · refine wf_cons.mpr ⟨fun d hd => ?_, hv, ih hm'⟩
        rcases mem_write hd with rfl | hd
        · simp only; omega
        · exact hlt d hd

/-- A write inside the bound keeps the bound. -/
theorem write_below {n : Nat} {m : List Host.Cell} (hm : Memory.below n m) {a : Nat} (ha : a < n)
    (v : Byte) : Memory.below n (Memory.write m a v) := by
  intro c hc
  rcases mem_write hc with rfl | hc
  · exact ha
  · exact hm c hc

/-- A read after a write to the same address gives the byte written. -/
theorem read_write_same {m : List Host.Cell} (hm : Memory.wf m) (a : Nat) (v : Byte) :
    Memory.read (Memory.write m a v) a = v := by
  induction m with
  | nil => exact read_push_same (by simp)
  | cons c m ih =>
    obtain ⟨hlt, -, hm'⟩ := wf_cons.mp hm
    rw [Memory.write]
    split
    · rename_i hac
      refine read_push_same ?_
      simp only [List.forall_mem_cons]
      exact ⟨hac, fun d hd => Nat.lt_trans hac (hlt d hd)⟩
    · split
      · rename_i hac
        exact read_push_same fun d hd => hac ▸ hlt d hd
      · rename_i hac
        rw [read_cons, if_neg hac, ih hm']

/-- A write leaves every other address alone. -/
theorem read_write_other (m : List Host.Cell) {a b : Nat} (v : Byte) (h : b ≠ a) :
    Memory.read (Memory.write m a v) b = Memory.read m b := by
  induction m with
  | nil => exact read_push_other v [] h
  | cons c m ih =>
    rw [Memory.write]
    split
    · exact read_push_other v _ h
    · split
      · rename_i hac
        rw [read_push_other v m h, read_cons, if_neg (hac ▸ h)]
      · rw [read_cons, read_cons, ih]

theorem zeroBelow_wf (n : Nat) {m : List Host.Cell} (hm : Memory.wf m) :
    Memory.wf (Memory.zeroBelow n m) :=
  ⟨hm.1.filter _, fun c hc => hm.2 c (List.mem_of_mem_filter hc)⟩

theorem zeroBelow_below {k : Nat} (n : Nat) {m : List Host.Cell} (hm : Memory.below k m) :
    Memory.below k (Memory.zeroBelow n m) :=
  fun c hc => hm c (List.mem_of_mem_filter hc)

/-- After the clear every byte below the bound is zero. -/
theorem read_zeroBelow_below {n a : Nat} (m : List Host.Cell) (ha : a < n) :
    Memory.read (Memory.zeroBelow n m) a = 0 :=
  read_not_listed fun c hc e => by
    have := (List.mem_filter.mp hc).2
    simp only [decide_eq_true_eq] at this
    omega

/-- The clear leaves every address from the bound on alone. -/
theorem read_zeroBelow_beyond {n a : Nat} (m : List Host.Cell) (ha : n ≤ a) :
    Memory.read (Memory.zeroBelow n m) a = Memory.read m a := by
  induction m with
  | nil => rfl
  | cons c m ih =>
    unfold Memory.zeroBelow at ih ⊢
    rw [List.filter_cons]
    split
    · rw [read_cons, read_cons, ih]
    · rename_i hc
      simp only [decide_eq_true_eq] at hc
      rw [ih, read_cons, if_neg (by omega)]

theorem mem_ofFun {n : Nat} {f : Nat → Byte} {c : Host.Cell} :
    c ∈ Memory.ofFun n f ↔ c.1 < n ∧ c.2 = f c.1 ∧ f c.1 ≠ Memory.unlisted := by
  unfold Memory.ofFun
  rw [List.mem_filterMap]
  constructor
  · rintro ⟨a, ha, h⟩
    split at h
    · cases h
    · cases h
      exact ⟨by simpa using ha, rfl, ‹_›⟩
  · rintro ⟨h1, h2, h3⟩
    exact ⟨c.1, by simpa using h1, by rw [if_neg h3, ← h2]⟩

theorem ofFun_below (n : Nat) (f : Nat → Byte) : Memory.below n (Memory.ofFun n f) :=
  fun _ hc => (mem_ofFun.mp hc).1

theorem ofFun_wf (n : Nat) (f : Nat → Byte) : Memory.wf (Memory.ofFun n f) := by
  refine ⟨?_, fun c hc => ?_⟩
  · unfold Memory.ofFun
    rw [List.pairwise_filterMap]
    refine List.pairwise_lt_range.imp ?_
    intro a b hab c hc d hd
    split at hc <;> split at hd <;> cases hc <;> cases hd
    exact hab
  · obtain ⟨-, h2, h3⟩ := mem_ofFun.mp hc
    rw [h2]; exact h3

theorem read_of_mem {m : List Host.Cell} (hm : Memory.wf m) {c : Host.Cell} (hc : c ∈ m) :
    Memory.read m c.1 = c.2 := by
  induction m with
  | nil => cases hc
  | cons d m ih =>
    obtain ⟨hlt, -, hm'⟩ := wf_cons.mp hm
    rw [read_cons]
    rcases List.mem_cons.mp hc with rfl | hc
    · rw [if_pos rfl]
    · have := hlt c hc
      rw [if_neg (by omega), ih hm' hc]

/-- The listing of a function reads as the function inside the bound. -/
theorem read_ofFun {n a : Nat} (f : Nat → Byte) (ha : a < n) :
    Memory.read (Memory.ofFun n f) a = f a := by
  by_cases h : f a = Memory.unlisted
  · rw [h]
    refine read_not_listed fun c hc e => ?_
    subst e
    exact (mem_ofFun.mp hc).2.2 h
  · exact read_of_mem (ofFun_wf n f) ((mem_ofFun (c := (a, f a))).mpr ⟨ha, rfl, h⟩)

/-- Equal memories are equal data: two canonical lists that read alike everywhere are the same list. -/
theorem wf_ext {m m' : List Host.Cell} (hm : Memory.wf m) (hm' : Memory.wf m')
    (h : ∀ a, Memory.read m a = Memory.read m' a) : m = m' := by
  induction m generalizing m' with
  | nil =>
    cases m' with
    | nil => rfl
    | cons d m' =>
      have := h d.1
      rw [read_cons, if_pos rfl, read_nil] at this
      exact absurd this.symm (wf_cons.mp hm').2.1
  | cons c m ih =>
    cases m' with
    | nil =>
      have := h c.1
      rw [read_cons, if_pos rfl, read_nil] at this
      exact absurd this (wf_cons.mp hm).2.1
    | cons d m' =>
      obtain ⟨hc, hcv, hmw⟩ := wf_cons.mp hm
      obtain ⟨hd, hdv, hmw'⟩ := wf_cons.mp hm'
      have hcd : c.1 = d.1 := by
        rcases Nat.lt_trichotomy c.1 d.1 with hlt | heq | hgt
        · have h1 := h c.1
          rw [read_cons, if_pos rfl, read_before (m := d :: m')] at h1
          · exact absurd h1 hcv
          · simp only [List.forall_mem_cons]
            exact ⟨hlt, fun e he => Nat.lt_trans hlt (hd e he)⟩
        · exact heq
        · have h1 := h d.1
          rw [read_cons d, if_pos rfl, read_before (m := c :: m)] at h1
          · exact absurd h1.symm hdv
          · simp only [List.forall_mem_cons]
            exact ⟨hgt, fun e he => Nat.lt_trans hgt (hc e he)⟩
      have hcv2 : c.2 = d.2 := by
        have h1 := h c.1
        rwa [read_cons, if_pos rfl, read_cons, if_pos hcd] at h1
      have htail : m = m' := ih hmw hmw' fun a => by
        by_cases ha : a = c.1
        · rw [read_before (m := m), read_before (m := m')]
          · intro e he; rw [ha, hcd]; exact hd e he
          · intro e he; rw [ha]; exact hc e he
        · have h1 := h a
          rwa [read_cons, if_neg ha, read_cons, if_neg (hcd ▸ ha)] at h1
      rw [htail]
      exact congrArg (· :: m') (Prod.ext hcd hcv2)

end Sys2Proof.Machine
end

