-- ==== Sys2Proof/Laws/State.lean ====
section
/-! SUPPORT. One lemma per field per update of the state, so that no later proof unfolds a record update. -/

namespace Sys2Proof.Machine

variable (s : State)

@[simp] theorem setFb_params (m : List Host.Cell) : (s.setFb m).params = s.params := rfl
@[simp] theorem setFb_fb (m : List Host.Cell) : (s.setFb m).fb = m := rfl
@[simp] theorem setFb_region (m : List Host.Cell) : (s.setFb m).region = s.region := rfl
@[simp] theorem setFb_orient (m : List Host.Cell) : (s.setFb m).orient = s.orient := rfl
@[simp] theorem setFb_inputs (m : List Host.Cell) : (s.setFb m).inputs = s.inputs := rfl
@[simp] theorem setFb_resp (m : List Host.Cell) : (s.setFb m).resp = s.resp := rfl

@[simp] theorem setRegion_params (r : Region) : (s.setRegion r).params = s.params := rfl
@[simp] theorem setRegion_fb (r : Region) : (s.setRegion r).fb = s.fb := rfl
@[simp] theorem setRegion_region (r : Region) : (s.setRegion r).region = r := rfl
@[simp] theorem setRegion_orient (r : Region) : (s.setRegion r).orient = s.orient := rfl
@[simp] theorem setRegion_inputs (r : Region) : (s.setRegion r).inputs = s.inputs := rfl
@[simp] theorem setRegion_resp (r : Region) : (s.setRegion r).resp = s.resp := rfl

@[simp] theorem setOrient_params (o : BitVec 2) : (s.setOrient o).params = s.params := rfl
@[simp] theorem setOrient_fb (o : BitVec 2) : (s.setOrient o).fb = s.fb := rfl
@[simp] theorem setOrient_region (o : BitVec 2) : (s.setOrient o).region = s.region := rfl
@[simp] theorem setOrient_orient (o : BitVec 2) : (s.setOrient o).orient = o := rfl
@[simp] theorem setOrient_inputs (o : BitVec 2) : (s.setOrient o).inputs = s.inputs := rfl
@[simp] theorem setOrient_resp (o : BitVec 2) : (s.setOrient o).resp = s.resp := rfl

@[simp] theorem setInputs_params (l : List HostInput) : (s.setInputs l).params = s.params := rfl
@[simp] theorem setInputs_fb (l : List HostInput) : (s.setInputs l).fb = s.fb := rfl
@[simp] theorem setInputs_region (l : List HostInput) : (s.setInputs l).region = s.region := rfl
@[simp] theorem setInputs_orient (l : List HostInput) : (s.setInputs l).orient = s.orient := rfl
@[simp] theorem setInputs_inputs (l : List HostInput) : (s.setInputs l).inputs = l := rfl
@[simp] theorem setInputs_resp (l : List HostInput) : (s.setInputs l).resp = s.resp := rfl

@[simp] theorem setResp_params (r : Option Response) : (s.setResp r).params = s.params := rfl
@[simp] theorem setResp_fb (r : Option Response) : (s.setResp r).fb = s.fb := rfl
@[simp] theorem setResp_region (r : Option Response) : (s.setResp r).region = s.region := rfl
@[simp] theorem setResp_orient (r : Option Response) : (s.setResp r).orient = s.orient := rfl
@[simp] theorem setResp_inputs (r : Option Response) : (s.setResp r).inputs = s.inputs := rfl
@[simp] theorem setResp_resp (r : Option Response) : (s.setResp r).resp = r := rfl

@[simp] theorem resetWith_params (p : Params) : (State.resetWith p).params = p := rfl
@[simp] theorem resetWith_fb (p : Params) : (State.resetWith p).fb = p.fbInit := rfl
@[simp] theorem resetWith_region (p : Params) : (State.resetWith p).region = Region.full p := rfl
@[simp] theorem resetWith_orient (p : Params) : (State.resetWith p).orient = p.orientReset := rfl
@[simp] theorem resetWith_inputs (p : Params) : (State.resetWith p).inputs = [] := rfl
@[simp] theorem resetWith_resp (p : Params) : (State.resetWith p).resp = none := rfl

end Sys2Proof.Machine
end

