-- ==== Sys2Proof/Laws/Ops.lean ====
section
/-! SUPPORT. One lemma per shared operation (Machine/Region.lean, Operands.lean, Flags.lean, Ops.lean) that
says what it can do. -/

namespace Sys2Proof.Machine

/-! The lanes of a response. -/

theorem toNat_append_eq_add {m n : Nat} (x : BitVec m) (y : BitVec n) :
    (x ++ y).toNat = x.toNat * 2 ^ n + y.toNat := by
  rw [BitVec.toNat_append, ← Nat.shiftLeft_add_eq_or_of_lt y.isLt, Nat.shiftLeft_eq]

theorem lanes_toNat (a b c d : Nat) : (lanes a b c d).toNat =
    ((a % 65536 * 65536 + b % 65536) * 65536 + c % 65536) * 65536 + d % 65536 := by
  simp only [lanes, toNat_append_eq_add, BitVec.toNat_ofNat, Nat.reducePow]

theorem lane_eq_div_mod (d : Data) (k : Nat) : lane d k = d.toNat / 65536 ^ k % 65536 := by
  simp only [lane, BitVec.extractLsb'_toNat, Nat.shiftRight_eq_div_pow, pow_mul, Nat.reducePow]

@[simp] theorem lane_lanes_3 (a b c d : Nat) : lane (lanes a b c d) 3 = a % 65536 := by
  rw [lane_eq_div_mod, lanes_toNat]; omega

@[simp] theorem lane_lanes_2 (a b c d : Nat) : lane (lanes a b c d) 2 = b % 65536 := by
  rw [lane_eq_div_mod, lanes_toNat]; omega

@[simp] theorem lane_lanes_1 (a b c d : Nat) : lane (lanes a b c d) 1 = c % 65536 := by
  rw [lane_eq_div_mod, lanes_toNat]; omega

@[simp] theorem lane_lanes_0 (a b c d : Nat) : lane (lanes a b c d) 0 = d % 65536 := by
  rw [lane_eq_div_mod, lanes_toNat]; omega

@[simp] theorem lane_zero (k : Nat) : lane 0#64 k = 0 := by simp [lane_eq_div_mod]

theorem lane_byte_0 (b : Byte) : lane (b.setWidth 64) 0 = b.toNat := by
  have := b.isLt
  rw [lane_eq_div_mod, BitVec.toNat_setWidth]; omega

theorem lane_byte_pos (b : Byte) {k : Nat} (hk : 0 < k) : lane (b.setWidth 64) k = 0 := by
  have h := b.isLt
  have h64 : b.toNat % 2 ^ 64 = b.toNat := Nat.mod_eq_of_lt (by omega)
  have hlt : b.toNat < 65536 ^ k :=
    calc b.toNat < 65536 ^ 1 := by omega
      _ ≤ 65536 ^ k := Nat.pow_le_pow_right (by omega) hk
  rw [lane_eq_div_mod, BitVec.toNat_setWidth, h64, Nat.div_eq_of_lt hlt]

/-! The reset state. -/

theorem reset_fb : State.reset.fb = Memory.ofFun (128 * 64 / 8) Config.fbInit := by
  simp only [State.reset, resetWith_fb, Config.defaultParams]

/-- The reset state's framebuffer is canonical. -/
theorem reset_fb_wf : Memory.wf State.reset.fb := reset_fb ▸ ofFun_wf _ _

theorem defaultParams_fbInit_wf : Memory.wf Config.defaultParams.fbInit := by
  simp only [Config.defaultParams]
  exact ofFun_wf _ _

theorem fbSize_default : fbSize Config.defaultParams = 128 * 64 / 8 := by
  simp only [fbSize, pages, Config.defaultParams]

/-- The default instance's reset contents list only addresses of the instance. -/
theorem defaultParams_fbInit_below :
    Memory.below (fbSize Config.defaultParams) Config.defaultParams.fbInit := by
  intro c hc
  simp only [Config.defaultParams] at hc
  rw [fbSize_default]
  exact ofFun_below _ _ c hc

/-! The dirty region. -/

theorem pending_iff (r : Region) : r.pending = true ↔
    r.xmin.toNat ≤ r.xmax.toNat ∧ r.ymin.toNat ≤ r.ymax.toNat := by
  simp [Region.pending, BitVec.le_def]

theorem widen_xmin (r : Region) {px : Nat} (py : Nat) (h : px < 4096) :
    (r.widen px py).xmin.toNat = min r.xmin.toNat px := by
  simp only [Region.widen, BitVec.toNat_ofNat]; omega

theorem widen_xmax (r : Region) {px : Nat} (py : Nat) (h : px < 4096) :
    (r.widen px py).xmax.toNat = max r.xmax.toNat px := by
  have := r.xmax.isLt
  simp only [Region.widen, BitVec.toNat_ofNat]; omega

theorem widen_ymin (r : Region) (px : Nat) {py : Nat} (h : py < 4096) :
    (r.widen px py).ymin.toNat = min r.ymin.toNat py := by
  simp only [Region.widen, BitVec.toNat_ofNat]; omega

theorem widen_ymax (r : Region) (px : Nat) {py : Nat} (h : py < 4096) :
    (r.widen px py).ymax.toNat = max r.ymax.toNat py := by
  have := r.ymax.isLt
  simp only [Region.widen, BitVec.toNat_ofNat]; omega

/-- The numbers of the full encoding (R16). -/
theorem full_toNat {p : Params} (h : p.legal) :
    (Region.full p).xmin.toNat = 0 ∧ (Region.full p).xmax.toNat = p.width - 1 ∧
    (Region.full p).ymin.toNat = 0 ∧ (Region.full p).ymax.toNat = p.height - 1 := by
  obtain ⟨h1, h2, h3, h4, -⟩ := h
  refine ⟨rfl, ?_, rfl, ?_⟩ <;> simp only [Region.full, BitVec.toNat_ofNat] <;> omega

/-- The numbers of the empty encoding (R15). -/
theorem empty_toNat {p : Params} (h : p.legal) :
    (Region.empty p).xmin.toNat = p.width - 1 ∧ (Region.empty p).xmax.toNat = 0 ∧
    (Region.empty p).ymin.toNat = p.height - 1 ∧ (Region.empty p).ymax.toNat = 0 := by
  obtain ⟨h1, h2, h3, h4, -⟩ := h
  refine ⟨?_, rfl, ?_, rfl⟩ <;> simp only [Region.empty, BitVec.toNat_ofNat] <;> omega

/-! The layout and the transform. -/

/-- A byte of a page and column in range lies inside the framebuffer (R31). -/
theorem addr_lt {p : Params} {pg c : Nat} (hp : pg < pages p) (hc : c < p.width) :
    addr p pg c < fbSize p := by
  unfold addr fbSize
  calc pg * p.width + c < pg * p.width + p.width := by omega
    _ = p.width * (pg + 1) := by ring
    _ ≤ p.width * pages p := Nat.mul_le_mul_left _ hp

/-- The page of a physical y in range (R32). -/
theorem page_lt {p : Params} (h : p.legal) {py : Nat} (hy : py < p.height) : py / 8 < pages p := by
  obtain ⟨-, -, -, -, h8⟩ := h
  unfold pages
  omega

theorem pixelAddr_lt {p : Params} (h : p.legal) {px py : Nat} (hx : px < p.width)
    (hy : py < p.height) : pixelAddr p px py < fbSize p :=
  addr_lt (page_lt h hy) hx

@[simp] theorem ite_ok_error_eq_ok {α ε : Type} (c : Prop) [Decidable c] (a b : α) (e : ε) :
    (if c then Except.ok a else .error e) = .ok b ↔ c ∧ a = b := by
  split <;> simp_all

/-- The transform under a two-bit orientation, case by case: `INVALID_STATE` cannot occur (R70, R72). -/
theorem transform_setWidth (p : Params) (x y : Nat) (o : BitVec 2) :
    transform p x y (o.setWidth 8) =
    match o.toNat with
    | 0 => if x < p.width ∧ y < p.height then .ok (x, y) else .error .outOfBounds
    | 1 => if x < p.height ∧ y < p.width then .ok (p.width - y - 1, x) else .error .outOfBounds
    | 2 => if x < p.width ∧ y < p.height then .ok (p.width - x - 1, p.height - y - 1)
           else .error .outOfBounds
    | _ => if x < p.height ∧ y < p.width then .ok (y, p.height - x - 1)
           else .error .outOfBounds := by
  have h : (o.setWidth 8).toNat = o.toNat := by
    have := o.isLt
    rw [BitVec.toNat_setWidth]; omega
  have hlt : o.toNat < 4 := o.isLt
  unfold transform
  rw [h]
  generalize o.toNat = n at hlt
  match n, hlt with
  | 0, _ => rfl
  | 1, _ => rfl
  | 2, _ => rfl
  | 3, _ => rfl

/-- Either the coordinate is refused as out of bounds, or it is a pixel of the panel. -/
theorem physical_cases (s : State) (x y : Nat) :
    s.physical x y = .error .outOfBounds ∨
    ∃ q, s.physical x y = .ok q ∧ q.1 < s.params.width ∧ q.2 < s.params.height := by
  rw [State.physical, transform_setWidth]
  split <;> split <;> first
    | exact .inl rfl
    | exact .inr ⟨_, rfl, by simp only; omega, by simp only; omega⟩

/-! Access and completion. -/

theorem memRead_of_lt {s : State} {a : Nat} (h : a < fbSize s.params) (k : Byte → Result) :
    s.memRead a k = k (Memory.read s.fb a) := if_pos h

theorem memRead_of_le {s : State} {a : Nat} (h : fbSize s.params ≤ a) (k : Byte → Result) :
    s.memRead a k = .fault (.noSuchCell a) := if_neg (Nat.not_lt.mpr h)

theorem respond_eq (s : State) (d : Data) :
    s.respond d = .next (s.setResp (some ⟨.ok, s.region.pending, d⟩)) := rfl

theorem raise_eq (s : State) (e : Status) :
    s.raise e = .next (s.setResp (some ⟨e, s.region.pending, 0⟩)) := rfl

/-- What `paint` changes: nothing, or one byte and the region (R80). -/
theorem paint_cases (s : State) (px py : Nat) (v : Bool) (old : Byte) :
    (paintByte old (pixelMask py) v = old ∧ s.paint px py v old = s) ∨
    (paintByte old (pixelMask py) v ≠ old ∧
      s.paint px py v old = (s.setFb (Memory.write s.fb (pixelAddr s.params px py)
        (paintByte old (pixelMask py) v))).setRegion (s.region.widen px py)) := by
  unfold State.paint
  split
  · exact .inl ⟨‹_›, rfl⟩
  · exact .inr ⟨‹_›, rfl⟩

/-- The painted byte, bit by bit: the addressed bit holds `v`, the other seven are kept (R80). -/
theorem paintByte_bit (old : Byte) (py : Nat) (v : Bool) {k : Nat} (hk : k < 8) :
    (paintByte old (pixelMask py) v).getLsbD k =
      if k = pixelBit py then v else old.getLsbD k := by
  have hb : pixelBit py < 8 := Nat.mod_lt _ (by omega)
  generalize hj : pixelBit py = j at hb
  unfold paintByte pixelMask
  rw [hj]
  cases v <;> simp only [Bool.false_eq_true, if_false, if_true, BitVec.getLsbD_and,
    BitVec.getLsbD_or, BitVec.getLsbD_not, BitVec.getLsbD_shiftLeft, BitVec.getLsbD_one] <;>
    by_cases hkj : k = j <;> by_cases hlt : k < j <;> simp [hkj, hlt, hk, hb] <;> omega

end Sys2Proof.Machine
end

