-- ==== Sys2Proof/Laws/Exec.lean ====
section
/-! SUPPORT. What a command and a step can do, said once: inversion lemmas over `exec`, `step` and runs. -/

namespace Sys2Proof.Machine

/-- `SPX` answers in two ways: refused as out of bounds, or painting a pixel of the panel. -/
theorem execSpx_next_cases {x y : Nat} {v : Bool} {s t : State} (h : execSpx x y v s = .next t) :
    (s.physical x y = .error .outOfBounds ∧
      t = s.setResp (some ⟨.outOfBounds, s.region.pending, 0⟩)) ∨
    ∃ q u, s.physical x y = .ok q ∧ q.1 < s.params.width ∧ q.2 < s.params.height ∧
      pixelAddr s.params q.1 q.2 < fbSize s.params ∧
      u = s.paint q.1 q.2 v (Memory.read s.fb (pixelAddr s.params q.1 q.2)) ∧
      t = u.setResp (some ⟨.ok, u.region.pending, 0⟩) := by
  rcases physical_cases s x y with e | ⟨q, e, hx, hy⟩ <;> rw [execSpx, e] at h
  · cases h
    exact .inl ⟨e, rfl⟩
  · simp only [State.memRead] at h
    split at h <;> cases h
    exact .inr ⟨q, _, e, hx, hy, ‹_›, rfl, rfl⟩

/-- `XFM` answers in two ways, as `SPX` does. -/
theorem execXfm_next_cases {x y : Nat} {s t : State} (h : execXfm x y s = .next t) :
    (s.physical x y = .error .outOfBounds ∧
      t = s.setResp (some ⟨.outOfBounds, s.region.pending, 0⟩)) ∨
    ∃ q, s.physical x y = .ok q ∧ q.1 < s.params.width ∧ q.2 < s.params.height ∧
      t = s.setResp (some ⟨.ok, s.region.pending, lanes 0 0 q.1 q.2⟩) := by
  rcases physical_cases s x y with e | ⟨q, e, hx, hy⟩ <;> rw [execXfm, e] at h <;> cases h
  · exact .inl ⟨e, rfl⟩
  · exact .inr ⟨q, e, hx, hy, rfl⟩

/-- `RDB` answers in two ways: refused as out of range, or a byte of the framebuffer. -/
theorem execRdb_next_cases {pg c : Nat} {s t : State} (h : execRdb pg c s = .next t) :
    ((pages s.params ≤ pg ∨ s.params.width ≤ c) ∧
      t = s.setResp (some ⟨.outOfBounds, s.region.pending, 0⟩)) ∨
    (pg < pages s.params ∧ c < s.params.width ∧
      t = s.setResp (some ⟨.ok, s.region.pending,
        (Memory.read s.fb (addr s.params pg c)).setWidth 64⟩)) := by
  rw [execRdb] at h
  split at h
  · cases h
    exact .inl ⟨‹_›, rfl⟩
  · rw [memRead_of_lt (addr_lt (by omega) (by omega))] at h
    cases h
    exact .inr ⟨by omega, by omega, rfl⟩

/-- `SETO` answers in two ways. -/
theorem execSeto_next_cases {r : Nat} {s t : State} (h : execSeto r s = .next t) :
    (3 < r ∧ t = s.setResp (some ⟨.invalidArgument, s.region.pending, 0⟩)) ∨
    (r ≤ 3 ∧ t = (s.setOrient (BitVec.ofNat 2 r)).setResp (some ⟨.ok, s.region.pending, 0⟩)) := by
  rw [execSeto] at h
  split at h <;> cases h
  · exact .inl ⟨‹_›, rfl⟩
  · exact .inr ⟨by omega, rfl⟩

/-- Every way a step can answer: idling, a reset, a command, or an illegal word. -/
theorem step_next_cases {s t : State} (h : step s = .next t) : s.params.legal ∧
    ((s.inputs = [] ∧ t = s) ∨
    (∃ rest, s.inputs = .rst :: rest ∧ t = (State.resetWith s.params).setInputs rest) ∨
    (∃ w rest i, s.inputs = .command w :: rest ∧ decode w = .ok i ∧
      exec i (s.setInputs rest) = .next t) ∨
    ∃ w rest e, s.inputs = .command w :: rest ∧ decode w = .error e ∧
      t = (s.setInputs rest).setResp (some ⟨.illegalCommand, s.region.pending, 0⟩)) := by
  rw [step] at h
  split at h
  · refine ⟨‹_›, ?_⟩
    rcases e : s.inputs with _ | ⟨w | _, rest⟩ <;> rw [e] at h <;> simp only at h
    · cases h
      exact .inl ⟨rfl, rfl⟩
    · split at h
      · exact .inr (.inr (.inl ⟨w, rest, _, rfl, ‹_›, h⟩))
      · cases h
        exact .inr (.inr (.inr ⟨w, rest, _, rfl, ‹_›, rfl⟩))
    · cases h
      exact .inr (.inl ⟨rest, rfl, rfl⟩)
  · cases h

/-- A run of `k + 1` steps that answers is a step and a run of `k` steps that answer. -/
theorem run_succ {k : Nat} {s t : State} (h : Host.Core.run Sys2Proof.core (k + 1) s = .next t) :
    ∃ u : State, step s = .next u ∧ Host.Core.run Sys2Proof.core k u = .next t := by
  simp only [Host.Core.run] at h
  split at h
  · exact ⟨_, ‹_›, h⟩
  · cases h
  · cases h

end Sys2Proof.Machine
end

