-- ==== Sys2Proof/Laws/PerInstr.lean ====
section
/-! SUPPORT. Statements about every command as syntax, one lemma per constructor. -/

/-- The encoded word of a well-formed command decodes to it, every operand at every value. -/
def Sys2Proof.Laws.RoundTrip.Statement (i : Sys2Proof.Instr) : Prop :=
  i.wellFormed = true → Sys2Proof.decode (Sys2Proof.encode i) = .ok i

namespace Sys2Proof.Laws.RoundTrip

theorem spx (x y : Nat) (v : Bool) : Statement (.spx x y v) := by
  intro h
  simp only [Instr.wellFormed, fitsCoordinate, Bool.and_eq_true, decide_eq_true_eq] at h
  have hv : v.toNat < 2 := Bool.toNat_lt v
  rw [encode, decode_eq, wordP_toNat h.1 h.2, if_pos (by omega)]
  have hx : (0x10000000 + v.toNat * 2 ^ 24 + x * 2 ^ 12 + y) / 4096 % 4096 = x := by omega
  have hy : (0x10000000 + v.toNat * 2 ^ 24 + x * 2 ^ 12 + y) % 4096 = y := by omega
  have hb : (0x10000000 + v.toNat * 2 ^ 24 + x * 2 ^ 12 + y) / 16777216 % 2 = v.toNat := by omega
  rw [hx, hy, hb]
  cases v <;> rfl

theorem clr : Statement .clr := fun _ => rfl

theorem seto (r : Nat) : Statement (.seto r) := by
  intro h
  simp only [Instr.wellFormed, fitsOrientation, decide_eq_true_eq] at h
  rw [encode, decode_eq, wordO_toNat h, if_neg (by omega), if_neg (by omega), if_pos (by omega)]
  rw [show (0x30000000 + r) % 256 = r by omega]

theorem xfm (x y : Nat) : Statement (.xfm x y) := by
  intro h
  simp only [Instr.wellFormed, fitsCoordinate, Bool.and_eq_true, decide_eq_true_eq] at h
  have hw : (wordC 0x40000000#32 x y).toNat = 0x40 * 2 ^ 24 + x * 2 ^ 12 + y :=
    wordC_toNat (k := 0x40) (by omega) h.1 h.2
  rw [encode, decode_eq, hw, if_neg (by omega), if_neg (by omega), if_neg (by omega),
    if_pos (by omega)]
  have hx : (0x40 * 2 ^ 24 + x * 2 ^ 12 + y) / 4096 % 4096 = x := by omega
  have hy : (0x40 * 2 ^ 24 + x * 2 ^ 12 + y) % 4096 = y := by omega
  rw [hx, hy]

theorem rdb (p c : Nat) : Statement (.rdb p c) := by
  intro h
  simp only [Instr.wellFormed, fitsCoordinate, Bool.and_eq_true, decide_eq_true_eq] at h
  have hw : (wordC 0x50000000#32 c p).toNat = 0x50 * 2 ^ 24 + c * 2 ^ 12 + p :=
    wordC_toNat (k := 0x50) (by omega) h.2 h.1
  rw [encode, decode_eq, hw, if_neg (by omega), if_neg (by omega), if_neg (by omega),
    if_neg (by omega), if_pos (by omega)]
  have hx : (0x50 * 2 ^ 24 + c * 2 ^ 12 + p) / 4096 % 4096 = c := by omega
  have hy : (0x50 * 2 ^ 24 + c * 2 ^ 12 + p) % 4096 = p := by omega
  rw [hx, hy]

theorem dpeek : Statement .dpeek := fun _ => rfl

theorem dtake : Statement .dtake := fun _ => rfl

theorem drst : Statement .drst := fun _ => rfl

theorem fplan : Statement .fplan := fun _ => rfl

theorem geo : Statement .geo := fun _ => rfl

end Sys2Proof.Laws.RoundTrip
end

