-- ==== Sys2Proof/Tests/Slice0.lean ====
section
/-! SUPPORT. Tests of the model against spec/30_encoding.md (words written out bit by bit) and
spec/95_test_vectors.md (expected results), and for every statement with hypotheses a concrete state and
operands that meet them. -/

namespace Sys2Proof.Tests

open Sys2Proof Sys2Proof.Machine

/-! Helpers: small states of the default-size instance, and what an outcome shows. -/

/-- Four registers from numbers. -/
def regs (a b c d : Nat) : Region :=
  ⟨BitVec.ofNat 12 a, BitVec.ofNat 12 b, BitVec.ofNat 12 c, BitVec.ofNat 12 d⟩

/-- An instance of the given size whose framebuffer resets to zero. -/
def zeroParams (w h : Nat) : Params := ⟨w, h, [], 0⟩

/-- A state of the 128 by 64 instance. -/
def at128 (fb : List Host.Cell) (r : Region) (o : BitVec 2) : State :=
  ⟨zeroParams 128 64, fb, r, o, [], none⟩

/-- The `EMPTY` start of spec/95_test_vectors.md section 2.2. -/
def emptyStart : State := at128 [] (regs 127 0 63 0) 0

/-- The outcome is a next state with this response, of which `p` holds. -/
def shows (o : Result) (st : Status) (pend : Bool) (l3 l2 l1 l0 : Nat) (p : State → Bool) : Bool :=
  match o with
  | .next t =>
    match t.resp with
    | some r => decide (r.status = st) && (r.pending == pend) && decide (lane r.data 3 = l3) &&
        decide (lane r.data 2 = l2) && decide (lane r.data 1 = l1) && decide (lane r.data 0 = l0) && p t
    | none => false
  | _ => false

/-! WellFormed: each check refuses an ill-formed term (R57). -/

theorem test_spx_x_too_wide_refused : (Instr.spx 4096 0 true).wellFormed = false := by decide
theorem test_spx_y_too_wide_refused : (Instr.spx 0 4096 true).wellFormed = false := by decide
theorem test_seto_operand_too_wide_refused : (Instr.seto 256).wellFormed = false := by decide
theorem test_xfm_x_too_wide_refused : (Instr.xfm 4096 0).wellFormed = false := by decide
theorem test_xfm_y_too_wide_refused : (Instr.xfm 0 4096).wellFormed = false := by decide
theorem test_rdb_page_too_wide_refused : (Instr.rdb 4096 0).wellFormed = false := by decide
theorem test_rdb_column_too_wide_refused : (Instr.rdb 0 4096).wellFormed = false := by decide

/-! Decoding, every constructor, from the formats of R51: op, zero field, V, X, Y or R. -/

theorem test_decode_spx :
    decode 0b0001_000_1_000000001010_000000010100#32 = .ok (.spx 10 20 true) := by decide
theorem test_decode_clr : decode 0b0010_0000000000000000000000000000#32 = .ok .clr := by decide
theorem test_decode_seto : decode 0b0011_00000000000000000000_10000001#32 = .ok (.seto 129) := by decide
theorem test_decode_xfm :
    decode 0b0100_0000_100000000001_000000000010#32 = .ok (.xfm 2049 2) := by decide
theorem test_decode_rdb_page_is_low :
    decode 0b0101_0000_000001111111_000000000111#32 = .ok (.rdb 7 127) := by decide
theorem test_decode_dpeek : decode 0b0110_0000000000000000000000000000#32 = .ok .dpeek := by decide
theorem test_decode_dtake : decode 0b0111_0000000000000000000000000000#32 = .ok .dtake := by decide
theorem test_decode_drst : decode 0b1000_0000000000000000000000000000#32 = .ok .drst := by decide
theorem test_decode_fplan : decode 0b1001_0000000000000000000000000000#32 = .ok .fplan := by decide
theorem test_decode_geo : decode 0b1010_0000000000000000000000000000#32 = .ok .geo := by decide

/-- Section 2.6: the illegal words listed there. -/
theorem test_decode_refuses_illegal_words :
    [0x00000000#32, 0xFFFFFFFF#32, 0xB0000000#32, 0x1300A014#32, 0x20000001#32, 0x30000100#32,
      0x4100A014#32, 0x60000001#32].all (fun w => (decode w).toOption.isNone) = true := by decide

/-- R53: no two rows of the opcode map accept the same word. -/
theorem test_rows_are_disjoint :
    opcodeRows.Pairwise (fun r q => (r.pattern ^^^ q.pattern) &&& r.mask &&& q.mask ≠ 0) := by decide

theorem test_encode_rdb : encode (.rdb 2 10) = 0x5000A002#32 := by decide
theorem test_encode_spx : encode (.spx 127 63 false) = 0x1007F03F#32 := by decide
theorem test_table_word_spx : decodeTableWord 32 0x10000000 = some (.spx 0 0 false) := by decide

/-! One step per command, expected results from spec/95_test_vectors.md. -/

/-- P1 step 2. -/
theorem test_spx_sets_the_bit : shows (exec (.spx 10 20 true) emptyStart) .ok true 0 0 0 0
    (fun t => t.fb == [(266, 0x10)] && t.region == regs 10 10 20 20) = true := by decide
/-- P2 step 2: the same command under `ORIENT = 1`. -/
theorem test_spx_rotated : shows (exec (.spx 10 20 true) (emptyStart.setOrient 1)) .ok true 0 0 0 0
    (fun t => t.fb == [(235, 0x04)] && t.region == regs 107 107 10 10) = true := by decide
/-- Section 2.2, `CLR`: the whole panel, whatever was there. -/
theorem test_clr : shows (exec .clr (at128 [(0, 0xFF), (1023, 0xFF)] (regs 5 5 5 5) 0)) .ok true 0 0 0 0
    (fun t => t.fb == [] && t.region == regs 0 127 0 63) = true := by decide
/-- Section 2.5. -/
theorem test_seto_stores : shows (exec (.seto 3) emptyStart) .ok false 0 0 0 0
    (fun t => t.orient == 3) = true := by decide
theorem test_seto_rejects_four : shows (exec (.seto 4) emptyStart) .invalidArgument false 0 0 0 0
    (fun t => t.orient == 0) = true := by decide
/-- Section 2.1. -/
theorem test_xfm_rotation_3 : shows (exec (.xfm 63 127) (emptyStart.setOrient 3)) .ok false 0 0 127 0
    (fun _ => true) = true := by decide
theorem test_xfm_out_of_bounds : shows (exec (.xfm 64 0) (emptyStart.setOrient 1)) .outOfBounds false
    0 0 0 0 (fun _ => true) = true := by decide
/-- Section 2.4. -/
theorem test_rdb : shows (exec (.rdb 2 10) (at128 [(266, 0x10)] (regs 10 10 20 20) 3)) .ok true 0 0 0
    0x10 (fun _ => true) = true := by decide
theorem test_rdb_last_byte : shows (exec (.rdb 7 127) (at128 [(1023, 0x80)] (regs 127 0 63 0) 0)) .ok
    false 0 0 0 0x80 (fun _ => true) = true := by decide
/-- Section 2.3. -/
theorem test_dpeek_empty : shows (exec .dpeek emptyStart) .ok false 127 0 63 0
    (fun t => t.region == regs 127 0 63 0) = true := by decide
theorem test_dtake : shows (exec .dtake (at128 [] (regs 10 10 20 20) 0)) .ok false 10 10 20 20
    (fun t => t.region == regs 127 0 63 0) = true := by decide
theorem test_drst : shows (exec .drst (at128 [] (regs 20 107 10 53) 0)) .ok false 0 0 0 0
    (fun t => t.region == regs 127 0 63 0) = true := by decide
theorem test_fplan : shows (exec .fplan (at128 [] (regs 3 100 7 8) 0)) .ok true 3 100 0 1
    (fun _ => true) = true := by decide
/-- Section 2.3, the 1 by 8 instance after `DRST`: the plan that only `pending` tells from a real one. -/
theorem test_fplan_1x8_empty :
    shows (exec .fplan ⟨zeroParams 1 8, [], regs 0 0 7 0, 0, [], none⟩) .ok false 0 0 0 0
    (fun _ => true) = true := by decide
theorem test_geo : shows (exec .geo (emptyStart.setOrient 3)) .ok false 128 64 0 3
    (fun _ => true) = true := by decide
/-- Section 2.5, the largest instance: lanes hold 4096. -/
theorem test_geo_4096 :
    shows (exec .geo ⟨zeroParams 4096 4096, [], regs 0 4095 0 4095, 0, [], none⟩) .ok true 4096 4096 0 0
    (fun _ => true) = true := by decide

/-- Section 2.1: `Transform` above orientation 3. -/
theorem test_transform_invalid_state :
    transform (zeroParams 128 64) 0 0 4 = .error .invalidState := by decide
/-- P5 step 6: a step on an illegal word. -/
theorem test_step_illegal_word : shows (step (emptyStart.withFetchWord 32 0x1300A014)) .illegalCommand
    false 0 0 0 0 (fun t => t.fb == [] && t.region == regs 127 0 63 0) = true := by decide
/-- A step on a legal word, from the reset state. -/
theorem test_step_from_reset : shows (step (State.reset.withFetchWord 32 0x90000000)) .ok true 0 127 0 7
    (fun _ => true) = true := by decide
/-- R140: the status numbers. -/
theorem test_status_codes : [Status.ok, .outOfBounds, .invalidArgument, .invalidState, .ioError,
    .illegalCommand].map Status.code = [0, 1, 2, 3, 4, 5] := by decide
/-- S6 with the precondition of P1: one column, one page, one byte. -/
theorem test_flush_of_one_pixel :
    (flush [⟨0, true⟩, ⟨0, true⟩, ⟨1, true⟩] (at128 [(266, 0x10)] (regs 10 10 20 20) 0)).map
      (fun f => (f.status, f.calls)) =
    some (.ok, [.columnRange 10 10, .pageRange 2 2, .data [0x10]]) := by decide
/-- R125: a transport that takes one byte at a time. -/
theorem test_send_data_in_pieces : sendData [⟨1, true⟩, ⟨0, true⟩, ⟨5, true⟩] [0xAA, 0xBB] =
    some ⟨true, [], [.data [0xAA], .data [], .data [0xBB]]⟩ := by decide

/-! ## Witnesses: the hypotheses of each statement, met by concrete states and operands -/

/-- A pending state with one pixel on. -/
def onePixel : State := at128 [(266, 0x10)] (regs 10 10 20 20) 0

theorem witness_decode_of_encode : (Instr.spx 4095 4095 true).wellFormed = true ∧
    (Instr.seto 255).wellFormed = true ∧ (Instr.rdb 4095 4095).wellFormed = true := by decide

theorem witness_encode_of_decode : decode 0x10FFFFFF#32 = .ok (.spx 4095 4095 false) := by decide

/-- Each clause of `illegalWord` at its boundary. -/
theorem witness_illegal_word :
    [0x0FFFFFFF#32, 0xB0000000#32, 0x12000000#32, 0x41000000#32, 0x58000000#32, 0x30000100#32,
      0x20000001#32, 0x60000001#32, 0xA8000000#32].all (fun w => decide (illegalWord w)) = true := by
  decide

/-- The nearest legal words of section 2.6. -/
theorem witness_legal_word :
    [0x1100A014#32, 0x20000000#32, 0x300000FF#32, 0x40FFFFFF#32, 0x60000000#32, 0xA0000000#32].all
      (fun w => decide (¬ illegalWord w)) = true := by
  decide

theorem witness_illegal_step : emptyStart.params.legal ∧
    (emptyStart.withFetchWord 32 0x20000001).inputs = [.command 0x20000001#32] ∧
    illegalWord 0x20000001#32 := by decide

theorem witness_step_runs : emptyStart.params.legal ∧
    (emptyStart.withFetchWord 32 0x1100A014).inputs = [.command 0x1100A014#32] ∧
    decode 0x1100A014#32 = .ok (.spx 10 20 true) := by decide

theorem witness_idle : emptyStart.params.legal ∧ emptyStart.inputs = [] := by decide

theorem witness_rst : onePixel.params.legal ∧
    (onePixel.setInputs [.rst, .command 0x90000000#32]).inputs = [.rst, .command 0x90000000#32] := by
  decide

/-- The smallest, the largest and the default sizes are legal; their neighbours are not (R4). -/
theorem witness_legal : (zeroParams 1 8).legal ∧ (zeroParams 4096 4096).legal ∧
    (zeroParams 128 64).legal ∧ ¬ (zeroParams 0 8).legal ∧ ¬ (zeroParams 4097 8).legal ∧
    ¬ (zeroParams 1 0).legal ∧ ¬ (zeroParams 1 12).legal ∧ ¬ (zeroParams 1 4104).legal := by decide

theorem witness_proper : proper ⟨2, 8, [(0, 1), (1, 0xFF)], 3⟩ := by decide

/-- The invariant in both of its cases, with and without a byte listed. -/
theorem witness_invariant : emptyStart.inv ∧ onePixel.inv ∧
    (⟨zeroParams 1 8, [(0, 0x80)], regs 0 0 7 7, 3, [], none⟩ : State).inv :=
  ⟨by decide, by decide, by decide⟩

/-- Registers in neither case, and a byte outside the framebuffer. -/
theorem witness_invariant_refuses :
    ¬ (at128 [] (regs 5 4 0 0) 0).inv ∧ ¬ (at128 [(1024, 1)] (regs 127 0 63 0) 0).inv :=
  ⟨by decide, by decide⟩

theorem witness_step_keeps : (emptyStart.withFetchWord 32 0x1100A014).inv ∧
    ∃ t, step (emptyStart.withFetchWord 32 0x1100A014) = .next t ∧ t.fb = [(266, 0x10)] :=
  ⟨by decide, _, rfl, by decide⟩

theorem witness_step_answers : (emptyStart.withFetchWord 32 0).inv ∧
    (emptyStart.withFetchWord 32 0).inputs = [.command 0#32] := by decide

theorem witness_transform_other : 3 < (4 : BitVec 8).toNat := by decide

/-- Every clause of the canvas at its last valid coordinate and just outside it (section 2.1). -/
theorem witness_canvas :
    inCanvas (zeroParams 128 64) 0 127 63 ∧ ¬ inCanvas (zeroParams 128 64) 0 128 0 ∧
    inCanvas (zeroParams 128 64) 1 63 127 ∧ ¬ inCanvas (zeroParams 128 64) 1 64 0 ∧
    inCanvas (zeroParams 128 64) 2 127 63 ∧ ¬ inCanvas (zeroParams 128 64) 2 0 64 ∧
    inCanvas (zeroParams 128 64) 3 63 127 ∧ ¬ inCanvas (zeroParams 128 64) 3 0 128 := by decide

theorem witness_transform_bijection :
    transform (zeroParams 128 64) 63 127 ((3 : BitVec 2).setWidth 8) = .ok (127, 0) ∧
    127 < (zeroParams 128 64).width ∧ 63 < (zeroParams 128 64).height := by decide

/-- A pixel whose bit equals the operand, one whose bit does not, and one outside the canvas. -/
theorem witness_spx : onePixel.params.legal ∧ Memory.wf onePixel.fb ∧
    inCanvas onePixel.params onePixel.orient 10 20 ∧ onePixel.physical 10 20 = .ok (10, 20) ∧
    onePixel.pixel 10 20 = true ∧ onePixel.pixel 127 63 ≠ true ∧
    inCanvas onePixel.params onePixel.orient 127 63 ∧
    ¬ inCanvas onePixel.params onePixel.orient 128 63 := by decide

theorem witness_spx_no_op : emptyStart.params.legal ∧ Memory.wf emptyStart.fb ∧
    emptyStart.physical 5 5 = .ok (5, 5) ∧ emptyStart.pixel 5 5 = false ∧
    emptyStart.pendingLine = false := by decide

theorem witness_spx_runs : ∃ t, exec (.spx 5 5 true) emptyStart = .next t ∧ t.fb = [(5, 0x20)] :=
  ⟨_, rfl, by decide⟩

/-- The framebuffer's last address and the first one that does not exist. -/
theorem witness_addresses : 1023 < fbSize onePixel.params ∧ fbSize onePixel.params ≤ 1024 := by decide

theorem witness_fplan_empty : emptyStart.inv ∧ emptyStart.pendingLine = false := by decide

theorem witness_fplan_pending : onePixel.inv ∧ onePixel.pendingLine = true := by decide

/-- A pixel of the panel with the empty, the full and a proper rectangle. -/
theorem witness_widen : (zeroParams 128 64).legal ∧ 127 < (zeroParams 128 64).width ∧
    63 < (zeroParams 128 64).height ∧ (regs 127 0 63 0).isEmpty (zeroParams 128 64) ∧
    (regs 0 127 0 63).isFull (zeroParams 128 64) ∧ (regs 3 100 7 40).isRect (zeroParams 128 64) ∧
    (regs 3 100 7 40).covers 3 40 := by decide

theorem witness_widen_bound : (regs 0 127 0 63).covers 127 63 ∧ (regs 0 127 0 63).covers 3 7 ∧
    (regs 0 127 0 63).covers 100 40 := by decide

/-- Commands that complete with `OK`: one from `EMPTY`, one from `PENDING`. -/
theorem witness_tracker : emptyStart.inv ∧ onePixel.inv ∧
    (∃ t r, exec (.spx 127 0 true) emptyStart = .next t ∧ t.resp = some r ∧ r.status = .ok) ∧
    (∃ t r, exec (.spx 127 0 true) onePixel = .next t ∧ t.resp = some r ∧ r.status = .ok) ∧
    emptyStart.region.tracker = .empty ∧ onePixel.region.tracker = .pending :=
  ⟨by decide, by decide, ⟨_, _, rfl, rfl, rfl⟩, ⟨_, _, rfl, rfl, rfl⟩, by decide, by decide⟩

/-- The last page and column, and the first of each that is out of range. -/
theorem witness_rdb : 7 < pages onePixel.params ∧ 127 < onePixel.params.width ∧
    pages onePixel.params ≤ 8 ∧ onePixel.params.width ≤ 128 := by decide

theorem witness_seto : (3 : Nat) ≤ 3 ∧ (3 : Nat) < 4 := by decide

theorem witness_failed_step : (emptyStart.withFetchWord 32 0x11080000).inputs = [.command 0x11080000#32] ∧
    ∃ t r, step (emptyStart.withFetchWord 32 0x11080000) = .next t ∧ t.resp = some r ∧
      r.status = .outOfBounds :=
  ⟨by decide, _, _, rfl, rfl, rfl⟩

theorem witness_failed_command : ∃ t r, exec (.seto 4) emptyStart = .next t ∧ t.resp = some r ∧
    r.status = .invalidArgument :=
  ⟨_, _, rfl, rfl, rfl⟩

theorem witness_repeated : Memory.wf emptyStart.fb ∧ ∃ t u, exec (.spx 5 5 true) emptyStart = .next t ∧
    exec (.spx 5 5 true) t = .next u :=
  ⟨by decide, _, _, rfl, rfl⟩

theorem witness_other_commands : (∀ x y v, Instr.rdb 2 10 ≠ .spx x y v) ∧
    (∀ x y, Instr.rdb 2 10 ≠ .xfm x y) ∧ (∀ r, Instr.rdb 2 10 ≠ .seto r) ∧ Instr.rdb 2 10 ≠ .geo ∧
    ∃ t, exec (.rdb 2 10) onePixel = .next t :=
  ⟨nofun, nofun, nofun, nofun, _, rfl⟩

/-- Two states with the same block and different ports. -/
theorem witness_same_block : onePixel.setInputs [.rst] ≠ onePixel ∧
    (onePixel.setInputs [.rst]).fb = onePixel.fb ∧ ∃ t, exec .dpeek onePixel = .next t :=
  ⟨by decide, by decide, _, rfl⟩

/-- Corners of the panel, the last address and the top bit. -/
theorem witness_pixels : (zeroParams 128 64).legal ∧ 127 < (zeroParams 128 64).width ∧
    63 < (zeroParams 128 64).height ∧ pixelAddr (zeroParams 128 64) 127 63 = 1023 ∧
    pixelBit 63 = 7 ∧ 1023 < fbSize (zeroParams 128 64) := by decide

/-- A run of two steps that changes a byte and empties nothing. -/
def twoCommands : State := emptyStart.setInputs [.command 0x1100A014#32, .command 0x90000000#32]

theorem witness_run_changes : twoCommands.inv ∧ twoCommands.region.isEmpty twoCommands.params ∧
    (∀ h ∈ twoCommands.inputs.take 2, h.restartsTracker = false ∧ h.clears = false) ∧
    twoCommands.changedIn 2 = [(10, 20)] ∧
    ∃ t : State, Host.Core.run Sys2Proof.core 2 twoCommands = .next t ∧
      2 < pages t.params ∧ 10 < t.params.width ∧ t.byteAt 2 10 ≠ twoCommands.byteAt 2 10 :=
  ⟨by decide, by decide, by decide, by decide, _, rfl, by decide, by decide, by decide⟩

/-- A run that changes nothing. -/
theorem witness_run_no_change :
    (emptyStart.setInputs [.command 0x90000000#32]).changedIn 1 = [] ∧
    ∃ t : State, Host.Core.run Sys2Proof.core 1 (emptyStart.setInputs [.command 0x90000000#32]) =
      .next t :=
  ⟨by decide, _, rfl⟩

theorem witness_full_run : (at128 [] (regs 0 127 0 63) 0).inv ∧
    (regs 0 127 0 63).isFull (zeroParams 128 64) ∧
    (∀ h ∈ [HostInput.command 0x1100A014#32, .rst], h.restartsTracker = true → h = .rst) ∧
    ∃ t : State, Host.Core.run Sys2Proof.core 2
      ((at128 [] (regs 0 127 0 63) 0).setInputs [.command 0x1100A014#32, .rst]) = .next t :=
  ⟨by decide, by decide, by decide, _, rfl⟩

theorem witness_flush_fails : ∃ f, flush [⟨0, true⟩, ⟨0, true⟩, ⟨0, false⟩] onePixel = some f ∧
    f.status = .ioError :=
  ⟨_, rfl, by decide⟩

theorem witness_flush_succeeds : onePixel.inv ∧ onePixel.pendingLine = true ∧
    ∃ f, flush [⟨0, true⟩, ⟨0, true⟩, ⟨1, true⟩] onePixel = some f ∧ f.status = .ok :=
  ⟨by decide, by decide, _, rfl, by decide⟩

theorem witness_flush_transport : onePixel.inv ∧ onePixel.pendingLine = true ∧
    onePixel.region.xmax.toNat - onePixel.region.xmin.toNat + 1 ≤ 1 ∧
    onePixel.region.ymax.toNat / 8 - onePixel.region.ymin.toNat / 8 + 3 ≤ 3 := by decide

end Sys2Proof.Tests
end

section
/-! SUPPORT. The tracker's state machine (spec/10_state.md rules R17, R18, R27): what its state says of the
registers, what a repainted pixel does to them, and the transition of every command. -/

namespace Sys2Proof.Machine

/-! The tracker's state, read off the registers. -/

/-- `PENDING` is the state of ordered bounds on both axes (R17, R18). -/
theorem tracker_eq_pending_iff {r : Region} : r.tracker = .pending ↔
    r.xmin.toNat ≤ r.xmax.toNat ∧ r.ymin.toNat ≤ r.ymax.toNat := by
  rw [← pending_iff, Region.tracker]
  cases r.pending <;> simp

theorem tracker_eq_empty_iff {r : Region} : r.tracker = .empty ↔ ¬ r.tracker = .pending := by
  cases r.tracker <;> simp

theorem tracker_of_isFull {p : Params} {r : Region} (h : r.isFull p) : r.tracker = .pending := by
  obtain ⟨hxmin, -, hymin, -⟩ := h
  rw [tracker_eq_pending_iff]
  omega

/-- A panel is at least 8 rows high (R4), so the empty encoding is out of order on the y axis even where
the panel is one column wide. -/
theorem tracker_of_isEmpty {p : Params} {r : Region} (hp : p.legal) (h : r.isEmpty p) :
    r.tracker = .empty := by
  obtain ⟨-, -, hheight, -⟩ := hp
  obtain ⟨-, -, hymin, hymax⟩ := h
  rw [tracker_eq_empty_iff, tracker_eq_pending_iff]
  omega

theorem legal_of_inv {s : State} (hs : s.inv) : s.params.legal := by
  obtain ⟨⟨hlegal, -⟩, -⟩ := hs
  exact hlegal

/-- Of the two cases of R19, `EMPTY` leaves only the empty encoding. -/
theorem isEmpty_of_tracker_empty {s : State} (hs : s.inv) (h : s.region.tracker = .empty) :
    s.region.isEmpty s.params := by
  obtain ⟨-, -, hempty | ⟨hx, -, hy, -⟩⟩ := hs
  · exact hempty
  · exact absurd (tracker_eq_pending_iff.mpr ⟨hx, hy⟩) (tracker_eq_empty_iff.mp h)

/-! What `Widen` gives (R81). -/

theorem widen_tracker (r : Region) {px py : Nat} (hx : px < 4096) (hy : py < 4096) :
    (r.widen px py).tracker = .pending := by
  rw [tracker_eq_pending_iff, widen_xmin r py hx, widen_xmax r py hx, widen_ymin r px hy,
    widen_ymax r px hy]
  omega

/-- With no test for emptiness: the empty encoding is neutral for the minima and maxima of R81. -/
theorem widen_of_isEmpty {p : Params} {r : Region} {px py : Nat} (hp : p.legal) (h : r.isEmpty p)
    (hx : px < p.width) (hy : py < p.height) :
    (r.widen px py).xmin.toNat = px ∧ (r.widen px py).xmax.toNat = px ∧
    (r.widen px py).ymin.toNat = py ∧ (r.widen px py).ymax.toNat = py := by
  obtain ⟨-, hwidth, -, hheight, -⟩ := hp
  obtain ⟨hxmin, hxmax, hymin, hymax⟩ := h
  have hx' : px < 4096 := by omega
  have hy' : py < 4096 := by omega
  rw [widen_xmin r py hx', widen_xmax r py hx', widen_ymin r px hy', widen_ymax r px hy']
  omega

/-! A repainted pixel. -/

/-- Painting changes the byte exactly where the addressed bit differs from `v` (R80). -/
theorem paintByte_eq_self_iff {old : Byte} {py : Nat} {v : Bool} :
    paintByte old (pixelMask py) v = old ↔ old.getLsbD (pixelBit py) = v := by
  have hbit : pixelBit py < 8 := Nat.mod_lt _ (by omega)
  constructor
  · intro h
    rw [← h, paintByte_bit old py v hbit, if_pos rfl]
  · intro h
    refine BitVec.eq_of_getLsbD_eq fun k hk => ?_
    rw [paintByte_bit old py v hk]
    split
    · rw [← h, ‹k = pixelBit py›]
    · rfl

/-- `SPX` at a pixel leaves the registers alone where the pixel's bit is `v` already, and widens them
to the pixel where it is not (R80, R83). -/
theorem paint_region (s : State) (px py : Nat) (v : Bool) :
    (s.paint px py v (Memory.read s.fb (pixelAddr s.params px py))).region =
      if s.pixel px py = v then s.region else s.region.widen px py := by
  rcases paint_cases s px py v (Memory.read s.fb (pixelAddr s.params px py)) with
    ⟨hsame, hpaint⟩ | ⟨hdiff, hpaint⟩
  · have hbit : s.pixel px py = v := paintByte_eq_self_iff.mp hsame
    rw [hpaint, if_pos hbit]
  · have hbit : ¬ s.pixel px py = v := fun h => hdiff (paintByte_eq_self_iff.mpr h)
    rw [hpaint, if_neg hbit, setRegion_region]

/-! The registers after a command. -/

/-- Completing a command writes no register: the response is all that `respond` adds. -/
theorem respond_region {s t : State} {d : Data} (h : s.respond d = .next t) :
    t.region = s.region := by
  rw [respond_eq] at h
  cases h
  rfl

theorem execSeto_region {r : Nat} {s t : State} (h : execSeto r s = .next t) :
    t.region = s.region := by
  obtain ⟨-, rfl⟩ | ⟨-, rfl⟩ := execSeto_next_cases h <;> rfl

theorem execXfm_region {x y : Nat} {s t : State} (h : execXfm x y s = .next t) :
    t.region = s.region := by
  obtain ⟨-, rfl⟩ | ⟨_, -, -, -, rfl⟩ := execXfm_next_cases h <;> rfl

theorem execRdb_region {pg c : Nat} {s t : State} (h : execRdb pg c s = .next t) :
    t.region = s.region := by
  obtain ⟨-, rfl⟩ | ⟨-, -, rfl⟩ := execRdb_next_cases h <;> rfl

/-- An `SPX` that completes with `OK` addresses a pixel of the panel, and the registers are then those
of `paint_region`. -/
theorem execSpx_ok_region {x y : Nat} {v : Bool} {s t : State} {r : Response}
    (h : execSpx x y v s = .next t) (hr : t.resp = some r) (hok : r.status = .ok) :
    ∃ px py, s.physical x y = .ok (px, py) ∧ px < s.params.width ∧ py < s.params.height ∧
      t.region = if s.pixel px py = v then s.region else s.region.widen px py := by
  obtain ⟨-, rfl⟩ | ⟨⟨px, py⟩, u, hq, hx, hy, -, rfl, rfl⟩ := execSpx_next_cases h
  · cases hr
    cases hok
  · exact ⟨px, py, hq, hx, hy, paint_region s px py v⟩

/-! The transitions of R18. -/

/-- To the full encoding: `CLR` and `rst`. -/
theorem full_transition {p : Params} (hp : p.legal) :
    (Region.full p).tracker = .pending ∧ (Region.full p).isFull p :=
  ⟨tracker_of_isFull (full_toNat hp), full_toNat hp⟩

/-- To the empty encoding: `DTAKE` and `DRST`. -/
theorem empty_transition {p : Params} (hp : p.legal) :
    (Region.empty p).tracker = .empty ∧ (Region.empty p).isEmpty p :=
  ⟨tracker_of_isEmpty hp (empty_toNat hp), empty_toNat hp⟩

/-- An `SPX` that changes a bit: from `EMPTY` to the one pixel, from `PENDING` to the minimum and maximum
on each axis. -/
theorem widen_transition {s : State} (hs : s.inv) {px py : Nat} (hx : px < s.params.width)
    (hy : py < s.params.height) :
    (s.region.widen px py).tracker = .pending ∧
    (s.region.tracker = .empty →
      (s.region.widen px py).xmin.toNat = px ∧ (s.region.widen px py).xmax.toNat = px ∧
      (s.region.widen px py).ymin.toNat = py ∧ (s.region.widen px py).ymax.toNat = py) ∧
    (s.region.tracker = .pending →
      (s.region.widen px py).xmin.toNat = min s.region.xmin.toNat px ∧
      (s.region.widen px py).xmax.toNat = max s.region.xmax.toNat px ∧
      (s.region.widen px py).ymin.toNat = min s.region.ymin.toNat py ∧
      (s.region.widen px py).ymax.toNat = max s.region.ymax.toNat py) := by
  have hlegal := legal_of_inv hs
  have hx' : px < 4096 := by omega
  have hy' : py < 4096 := by omega
  refine ⟨widen_tracker _ hx' hy', fun hempty => ?_, fun _ => ?_⟩
  · exact widen_of_isEmpty hlegal (isEmpty_of_tracker_empty hs hempty) hx hy
  · exact ⟨widen_xmin _ py hx', widen_xmax _ py hx', widen_ymin _ px hy', widen_ymax _ px hy'⟩

/-- Settles O27: one transition lemma per row of R18's table, chosen by the command. -/
theorem trackerFollowsItsTransitions : Obligations.TrackerFollowsItsTransitions := by
  unfold Obligations.TrackerFollowsItsTransitions
  refine ⟨fun p hp => full_transition hp, fun i s t r hs h hr hok => ?_⟩
  have hlegal := legal_of_inv hs
  cases i with
  | spx x y v =>
    obtain ⟨px, py, hq, hx, hy, hregion⟩ := execSpx_ok_region h hr hok
    refine ⟨px, py, hq, fun hsame => ?_, fun hdiff => ?_⟩
    · rw [hregion, if_pos hsame]
    · rw [hregion, if_neg hdiff]
      exact widen_transition hs hx hy
  | clr =>
    have hregion : t.region = Region.full s.params := respond_region h
    exact hregion ▸ full_transition hlegal
  | seto n => exact execSeto_region h
  | xfm x y => exact execXfm_region h
  | rdb pg c => exact execRdb_region h
  | dpeek => exact respond_region h
  | dtake =>
    have hregion : t.region = Region.empty s.params := respond_region h
    exact hregion ▸ empty_transition hlegal
  | drst =>
    have hregion : t.region = Region.empty s.params := respond_region h
    exact hregion ▸ empty_transition hlegal
  | fplan => exact respond_region h
  | geo => exact respond_region h

/-- Settles O9: the registers are those of `full_toNat`, and the other fields are the instance's own. -/
theorem resetLeavesTheStatedValues : Obligations.ResetLeavesTheStatedValues := by
  unfold Obligations.ResetLeavesTheStatedValues
  intro p hp
  obtain ⟨hxmin, hxmax, hymin, hymax⟩ := full_toNat hp
  have hpending : (Region.full p).pending = true := by
    rw [pending_iff]
    omega
  exact ⟨hxmin, hxmax, hymin, hymax, hpending, resetWith_params p, resetWith_orient p,
    fun a _ => by rw [resetWith_fb]⟩

end Sys2Proof.Machine
end

section
/-! SUPPORT. Reading and repeating commands (spec/20_memory.md rule R37, spec/41_pixel.md rule R83): what a
command leaves of the block, and what it leaves of it the second time. -/

namespace Sys2Proof.Machine

/-! Commands that only answer. -/

/-- The response port is no part of the block. -/
theorem sameBlock_setResp (s : State) (r : Option Response) : s.sameBlock (s.setResp r) :=
  ⟨rfl, rfl, rfl, rfl, rfl⟩

theorem respond_sameBlock {s t : State} {d : Data} (h : s.respond d = .next t) : s.sameBlock t := by
  rw [respond_eq] at h
  cases h
  exact sameBlock_setResp s _

theorem execXfm_sameBlock {x y : Nat} {s t : State} (h : execXfm x y s = .next t) :
    s.sameBlock t := by
  obtain ⟨-, rfl⟩ | ⟨_, -, -, -, rfl⟩ := execXfm_next_cases h <;> exact sameBlock_setResp s _

theorem execRdb_sameBlock {pg c : Nat} {s t : State} (h : execRdb pg c s = .next t) :
    s.sameBlock t := by
  obtain ⟨-, rfl⟩ | ⟨-, -, rfl⟩ := execRdb_next_cases h <;> exact sameBlock_setResp s _

/-- A 12-bit register fits its 16-bit lane (R56), so the lanes are the registers themselves. -/
theorem respond_asLanes_answered {s t : State} {r : Region} (h : s.respond r.asLanes = .next t) :
    t.answered .ok r.xmin.toNat r.xmax.toNat r.ymin.toNat r.ymax.toNat := by
  have fits (b : Reg) : b.toNat % 65536 = b.toNat := by
    have := b.isLt
    omega
  rw [respond_eq] at h
  cases h
  exact ⟨_, rfl, rfl, rfl, by rw [Region.asLanes, lane_lanes_3, fits],
    by rw [Region.asLanes, lane_lanes_2, fits], by rw [Region.asLanes, lane_lanes_1, fits],
    by rw [Region.asLanes, lane_lanes_0, fits]⟩

/-! Commands that write fixed values. -/

theorem zeroBelow_zeroBelow (n : Nat) (m : List Host.Cell) :
    Memory.zeroBelow n (Memory.zeroBelow n m) = Memory.zeroBelow n m := by
  simp only [Memory.zeroBelow, List.filter_filter, Bool.and_self]

theorem execClr_repeated {s t u : State} (h : execClr s = .next t) (h' : execClr t = .next u) :
    t.sameBlock u := by
  rw [execClr, respond_eq] at h h'
  cases h
  cases h'
  exact ⟨rfl, zeroBelow_zeroBelow _ s.fb, rfl, rfl, rfl⟩

/-- Emptying reads nothing but the panel's size, which it leaves alone (R15). -/
theorem emptyTracker_respond_repeated {s t u : State} {d e : Data}
    (h : s.emptyTracker.respond d = .next t) (h' : t.emptyTracker.respond e = .next u) :
    t.sameBlock u := by
  rw [respond_eq] at h h'
  cases h
  cases h'
  exact ⟨rfl, rfl, rfl, rfl, rfl⟩

/-- Whether `SETO` is refused depends on its operand alone, so it ends the same way twice. -/
theorem execSeto_repeated {r : Nat} {s t u : State} (h : execSeto r s = .next t)
    (h' : execSeto r t = .next u) : t.sameBlock u := by
  obtain ⟨-, rfl⟩ | ⟨hr', rfl⟩ := execSeto_next_cases h'
  · exact sameBlock_setResp t _
  · obtain ⟨hr, -⟩ | ⟨-, rfl⟩ := execSeto_next_cases h
    · omega
    · exact ⟨rfl, rfl, rfl, rfl, rfl⟩

/-! `SPX`: the pixel it paints is the pixel it finds the second time. -/

/-- Painting leaves the panel's size and the orientation, so the transform is the same after it. -/
theorem physical_paint (s : State) (px py : Nat) (v : Bool) (old : Byte) (x y : Nat) :
    (s.paint px py v old).physical x y = s.physical x y := by
  obtain ⟨-, hpaint⟩ | ⟨-, hpaint⟩ := paint_cases s px py v old
  · rw [hpaint]
  · rw [hpaint]
    rfl

/-- The painted pixel holds `v` (R80). -/
theorem paint_pixel {s : State} (hs : Memory.wf s.fb) (px py : Nat) (v : Bool) :
    (s.paint px py v (Memory.read s.fb (pixelAddr s.params px py))).pixel px py = v := by
  have hbit : pixelBit py < 8 := Nat.mod_lt _ (by omega)
  obtain ⟨hsame, hpaint⟩ | ⟨-, hpaint⟩ :=
    paint_cases s px py v (Memory.read s.fb (pixelAddr s.params px py)) <;> rw [hpaint]
  · exact paintByte_eq_self_iff.mp hsame
  · rw [State.pixel, setRegion_fb, setRegion_params, setFb_fb, setFb_params, read_write_same hs,
      paintByte_bit _ py v hbit, if_pos rfl]

/-- A pixel that holds `v` already is painted by no write at all (R83). -/
theorem paint_eq_self_of_pixel {s : State} {px py : Nat} {v : Bool} (h : s.pixel px py = v) :
    s.paint px py v (Memory.read s.fb (pixelAddr s.params px py)) = s := by
  obtain ⟨-, hpaint⟩ | ⟨hdiff, -⟩ :=
    paint_cases s px py v (Memory.read s.fb (pixelAddr s.params px py))
  · exact hpaint
  · exact absurd (paintByte_eq_self_iff.mpr h) hdiff

/-- `SPX` changes nothing where every pixel its coordinates can address holds `v` already (R80, R83). -/
theorem execSpx_sameBlock_of_pixel {x y : Nat} {v : Bool} {s t : State} (h : execSpx x y v s = .next t)
    (hv : ∀ q, s.physical x y = .ok q → s.pixel q.1 q.2 = v) : s.sameBlock t := by
  obtain ⟨-, rfl⟩ | ⟨q, u, hq, -, -, -, rfl, rfl⟩ := execSpx_next_cases h
  · exact sameBlock_setResp s _
  · rw [paint_eq_self_of_pixel (hv q hq)]
    exact sameBlock_setResp s _

/-- After `SPX` the same coordinates address a pixel that holds `v`, or still none (R80). -/
theorem execSpx_pixel {x y : Nat} {v : Bool} {s t : State} (hs : Memory.wf s.fb)
    (h : execSpx x y v s = .next t) {q : Nat × Nat} (hq : t.physical x y = .ok q) :
    t.pixel q.1 q.2 = v := by
  obtain ⟨herr, rfl⟩ | ⟨q', u, hq', -, -, -, rfl, rfl⟩ := execSpx_next_cases h
  · exact absurd (herr.symm.trans hq) nofun
  · have hsame : s.physical x y = .ok q := (physical_paint s _ _ _ _ x y).symm.trans hq
    cases hq'.symm.trans hsame
    exact paint_pixel hs q.1 q.2 v

/-- Settles O35: the readers only answer, `CLR`, `SETO`, `DTAKE` and `DRST` write the same values twice,
and `SPX` finds its pixel painted the second time. -/
theorem repeatedCommandsChangeNothingMore : Obligations.RepeatedCommandsChangeNothingMore := by
  unfold Obligations.RepeatedCommandsChangeNothingMore
  refine ⟨fun i s t h => ?_, fun i s t u hs h h' => ?_⟩
  · cases i with
    | rdb pg c => exact execRdb_sameBlock h
    | xfm x y => exact execXfm_sameBlock h
    | dpeek => exact respond_sameBlock h
    | fplan => exact respond_sameBlock h
    | geo => exact respond_sameBlock h
    | dtake =>
      intro hlegal
      have hregion : t.region = Region.empty s.params := respond_region h
      exact ⟨hregion ▸ empty_toNat hlegal, respond_asLanes_answered h⟩
    | spx x y v => trivial
    | clr => trivial
    | seto r => trivial
    | drst => trivial
  · cases i with
    | spx x y v => exact execSpx_sameBlock_of_pixel h' fun q hq => execSpx_pixel hs h hq
    | clr => exact execClr_repeated h h'
    | seto r => exact execSeto_repeated h h'
    | dtake => exact emptyTracker_respond_repeated h h'
    | drst => exact emptyTracker_respond_repeated h h'
    | rdb pg c => exact execRdb_sameBlock h'
    | xfm x y => exact execXfm_sameBlock h'
    | dpeek => exact respond_sameBlock h'
    | fplan => exact respond_sameBlock h'
    | geo => exact respond_sameBlock h'

end Sys2Proof.Machine
end

section
/-! SUPPORT. The opcode map row by row (spec/30_encoding.md rules R53, R54): a row that accepts a word is the
row the decoder reads it by, and the words no row accepts are R54's illegal words. -/

namespace Sys2Proof

/-! The scan of the rows. -/

/-- Where no word is accepted by two rows, the order of the rows does not matter. -/
theorem scanRows_of_accepts {rs : List Row} {w : Word}
    (hd : rs.Pairwise fun r q => r.accepts w = true → q.accepts w = false) {r : Row} (hr : r ∈ rs)
    (h : r.accepts w = true) : scanRows rs w = .ok (r.build w) := by
  induction rs with
  | nil => cases hr
  | cons q rs ih =>
    obtain ⟨hq, hrs⟩ := List.pairwise_cons.mp hd
    rw [scanRows]
    rcases List.mem_cons.mp hr with rfl | hr
    · rw [if_pos h]
    · have hnot : ¬ q.accepts w = true := fun hqw => by simp [hq r hr hqw] at h
      rw [if_neg hnot, ih hrs hr]

theorem exists_row_of_scanRows_ok {rs : List Row} {w : Word} {i : Instr}
    (h : scanRows rs w = .ok i) : ∃ r ∈ rs, r.accepts w = true ∧ r.build w = i := by
  induction rs with
  | nil => cases h
  | cons q rs ih =>
    rw [scanRows] at h
    split at h
    · cases h
      exact ⟨q, List.mem_cons_self, ‹_›, rfl⟩
    · obtain ⟨r, hr, hrw, hri⟩ := ih h
      exact ⟨r, List.mem_cons_of_mem q hr, hrw, hri⟩

theorem scanRows_error_iff {rs : List Row} {w : Word} :
    (∃ e, scanRows rs w = .error e) ↔ ∀ r ∈ rs, r.accepts w = false := by
  induction rs with
  | nil => simp [scanRows]
  | cons q rs ih =>
    rw [scanRows, List.forall_mem_cons]
    by_cases h : q.accepts w = true
    · simp [h]
    · simp [h, ih]

/-! The opcode map of R53. -/

/-- Two rows differ in a bit that both masks test, so no word is accepted by both. -/
theorem opcodeRows_accept_once (w : Word) :
    opcodeRows.Pairwise fun r q => r.accepts w = true → q.accepts w = false := by
  have hpatterns : opcodeRows.Pairwise fun r q => r.pattern &&& q.mask ≠ q.pattern &&& r.mask := by
    decide
  refine hpatterns.imp fun {r q} hne hr => ?_
  rw [Row.accepts, beq_iff_eq] at hr
  rw [Row.accepts, beq_eq_false_iff_ne]
  intro hq
  apply hne
  rw [← hr, ← hq, BitVec.and_assoc, BitVec.and_assoc, BitVec.and_comm r.mask]

/-- The ten rows read a word as ten different commands. -/
theorem opcodeRows_builds_nodup (w : Word) : (opcodeRows.map (Row.build · w)).Nodup := by
  simp [opcodeRows]

/-- A word matches a row exactly when it decodes to what that row reads (R53). -/
theorem matches_row_iff_decode {r : Row} (hr : r ∈ opcodeRows) (w : Word) :
    w &&& r.mask = r.pattern ↔ decode w = .ok (r.build w) := by
  rw [← beq_iff_eq, ← Row.accepts]
  constructor
  · exact scanRows_of_accepts (opcodeRows_accept_once w) hr
  · intro h
    obtain ⟨q, hq, hqw, hbuild⟩ := exists_row_of_scanRows_ok h
    rwa [← List.inj_on_of_nodup_map (opcodeRows_builds_nodup w) hq hr hbuild]

/-! The words of R54. -/

/-- A row that tests the bits from `k ≤ 28` up, with nothing but its opcode set in its pattern, accepts
the words of that opcode whose bits 27 to `k` are zero. -/
theorem accepts_iff_opcode_and_zero_field (r : Row) (w : Word) {k op : Nat} (hk : k ≤ 28)
    (hop : op < 16) (hm : r.mask = BitVec.allOnes 32 <<< k)
    (hp : r.pattern = BitVec.ofNat 32 (op * 2 ^ (28 - k) * 2 ^ k)) :
    r.accepts w = true ↔ fieldOp w = op ∧ w.extractLsb' k (28 - k) = 0 := by
  have hpow : 2 ^ (28 - k) * 2 ^ k = 268435456 := by
    rw [← pow_add, Nat.sub_add_cancel hk]
    rfl
  have hbound : op * 2 ^ (28 - k) * 2 ^ k < 2 ^ 32 := by
    rw [mul_assoc, hpow]
    omega
  have hopcode : fieldOp w = w.toNat / 2 ^ k / 2 ^ (28 - k) := by
    rw [fieldOp_eq, Nat.div_div_eq_div_mul, mul_comm (2 ^ k), hpow]
  have hzero : w.extractLsb' k (28 - k) = 0 ↔ w.toNat / 2 ^ k % 2 ^ (28 - k) = 0 := by
    rw [← BitVec.toNat_inj, BitVec.extractLsb'_toNat, Nat.shiftRight_eq_div_pow]
    rfl
  rw [accepts_high r w hm hp hbound, decide_eq_true_eq, hopcode, hzero,
    Nat.div_mod_unique (Nat.two_pow_pos _), mul_comm op, zero_add, eq_comm,
    and_iff_left (Nat.two_pow_pos _)]

/-- The lowest bit of the zero field of a command's opcode; the field ends at bit 27 (R51, R54). -/
def zeroFieldLow (op : Nat) : Nat :=
  match op with
  | 1 => 25
  | 3 => 8
  | 4 => 24
  | 5 => 24
  | _ => 0

/-- The word has a command's opcode, and that command's zero field is zero. -/
def zeroFieldClear (w : Word) : Prop :=
  1 ≤ fieldOp w ∧ fieldOp w ≤ 10 ∧
    w.extractLsb' (zeroFieldLow (fieldOp w)) (28 - zeroFieldLow (fieldOp w)) = 0

/-- The rows stand in the order of their opcodes, from 1 on. -/
theorem opcodeRows_accepts_iff (n : Fin 10) (w : Word) : opcodeRows[n].accepts w = true ↔
    fieldOp w = n + 1 ∧ w.extractLsb' (zeroFieldLow (n + 1)) (28 - zeroFieldLow (n + 1)) = 0 := by
  have hrow : ∀ n : Fin 10, zeroFieldLow (n + 1) ≤ 28 ∧
      opcodeRows[n].mask = BitVec.allOnes 32 <<< zeroFieldLow (n + 1) ∧
      opcodeRows[n].pattern = BitVec.ofNat 32
        ((n + 1) * 2 ^ (28 - zeroFieldLow (n + 1)) * 2 ^ zeroFieldLow (n + 1)) := by
    decide
  obtain ⟨hk, hm, hp⟩ := hrow n
  exact accepts_iff_opcode_and_zero_field _ w hk (by omega) hm hp

theorem exists_row_accepts_iff (w : Word) :
    (∃ r ∈ opcodeRows, r.accepts w = true) ↔ zeroFieldClear w := by
  constructor
  · rintro ⟨r, hr, hrw⟩
    obtain ⟨n, hn, rfl⟩ := List.mem_iff_getElem.mp hr
    have hn : n < 10 := hn
    obtain ⟨hop, hzero⟩ := (opcodeRows_accepts_iff ⟨n, hn⟩ w).mp hrw
    rw [zeroFieldClear, hop]
    exact ⟨by omega, by omega, hzero⟩
  · rintro ⟨hpos, hle, hzero⟩
    have hop : fieldOp w - 1 + 1 = fieldOp w := by omega
    refine ⟨_, List.getElem_mem _, (opcodeRows_accepts_iff ⟨fieldOp w - 1, by omega⟩ w).mpr ?_⟩
    rw [hop]
    exact ⟨rfl, hzero⟩

theorem decode_error_iff_not_zeroFieldClear (w : Word) :
    (∃ e, decode w = .error e) ↔ ¬ zeroFieldClear w := by
  simp only [decode, scanRows_error_iff, ← exists_row_accepts_iff, not_exists, not_and,
    Bool.not_eq_true]

end Sys2Proof

namespace Sys2Proof.Machine

/-- R54's list, opcode by opcode: each opcode decides every comparison and gives its zero field's bounds. -/
theorem illegalWord_iff_not_zeroFieldClear (w : Word) : illegalWord w ↔ ¬ zeroFieldClear w := by
  rw [illegalWord, zeroFieldClear, ← fieldOp]
  have hop : fieldOp w < 16 := (w.extractLsb' 28 4).isLt
  generalize fieldOp w = op at hop
  interval_cases op <;> simp <;> rfl

/-- A word that does not decode is taken from the port and answered by `raise`. -/
theorem step_of_decode_error {s : State} {w : Word} {rest : List HostInput} {e : DecodeError}
    (hlegal : s.params.legal) (hinputs : s.inputs = .command w :: rest) (he : decode w = .error e) :
    step s = (s.setInputs rest).raise .illegalCommand := by
  simp only [step, if_pos hlegal, hinputs, he, State.illegal]

/-- A raised status comes with data 0 and the flag unchanged (R140, R142). -/
theorem raise_answered {s t : State} {e : Status} (h : s.raise e = .next t) :
    t.answered e 0 0 0 0 := by
  rw [raise_eq] at h
  cases h
  exact ⟨_, rfl, rfl, rfl, lane_zero 3, lane_zero 2, lane_zero 1, lane_zero 0⟩

theorem raise_sameBlock {s t : State} {e : Status} (h : s.raise e = .next t) : s.sameBlock t := by
  rw [raise_eq] at h
  cases h
  exact sameBlock_setResp s _

/-- Settles O3: each row of the map is a case of `matches_row_iff_decode`, its operands the fields of R51. -/
theorem wordIsTheCommandOfTheRowItMatches : Obligations.WordIsTheCommandOfTheRowItMatches := by
  unfold Obligations.WordIsTheCommandOfTheRowItMatches
  intro w
  have row (n : Nat) (hn : n < opcodeRows.length) :=
    matches_row_iff_decode (List.getElem_mem hn) w
  simp only [Nat.reducePow, ← fieldX_eq, ← fieldY_eq, ← fieldR_eq, ← fieldV_eq]
  exact ⟨row 0 (by decide), row 1 (by decide), row 2 (by decide), row 3 (by decide),
    row 4 (by decide), row 5 (by decide), row 6 (by decide), row 7 (by decide), row 8 (by decide),
    row 9 (by decide)⟩

/-- Settles O4: the decoder refuses, and R54 lists, the words without `zeroFieldClear`; a refused word is
answered by `raise`, which writes the response port alone. -/
theorem illegalWordsCompleteWithIllegalCommand :
    Obligations.IllegalWordsCompleteWithIllegalCommand := by
  unfold Obligations.IllegalWordsCompleteWithIllegalCommand
  have hrefused (w : Word) : (∃ e, decode w = .error e) ↔ illegalWord w :=
    (decode_error_iff_not_zeroFieldClear w).trans (illegalWord_iff_not_zeroFieldClear w).symm
  refine ⟨hrefused, by decide, by decide, fun s w rest hlegal hinputs hw => ?_⟩
  obtain ⟨e, he⟩ := (hrefused w).mpr hw
  have hraise := raise_eq (s.setInputs rest) .illegalCommand
  exact ⟨_, (step_of_decode_error hlegal hinputs he).trans hraise, raise_sameBlock hraise,
    raise_answered hraise⟩

end Sys2Proof.Machine
end

section
/-! SUPPORT. The transform and `XFM` (spec/40_transform.md rules R70 to R72): one rotation on the canvas and
one refusal outside it, and how `XFM` answers each. -/

namespace Sys2Proof.Machine

/-! The transform. -/

theorem transform_of_three_lt (p : Params) (x y : Nat) {o : BitVec 8} (h : 3 < o.toNat) :
    transform p x y o = .error .invalidState := by
  unfold transform
  split
  case h_5 => rfl
  all_goals omega

/-- Settles O15: the four rotations are the arms of `transform`, and no other value reaches one. -/
theorem transformFollowsTheFourRotations : Obligations.TransformFollowsTheFourRotations := by
  unfold Obligations.TransformFollowsTheFourRotations
  exact fun p x y => ⟨rfl, rfl, rfl, rfl, fun _ ho => transform_of_three_lt p x y ho⟩

/-- The pixel that a canvas coordinate addresses under the orientation `o`: R70 without its conditions. -/
def rotate (p : Params) (o : BitVec 2) (x y : Nat) : Nat × Nat :=
  match o.toNat with
  | 0 => (x, y)
  | 1 => (p.width - y - 1, x)
  | 2 => (p.width - x - 1, p.height - y - 1)
  | _ => (y, p.height - x - 1)

/-- Under a two-bit orientation the conditions of R70 are the canvas of R71. -/
theorem transform_setWidth_eq_ite (p : Params) (o : BitVec 2) (x y : Nat) :
    transform p x y (o.setWidth 8) =
      if inCanvas p o x y then .ok (rotate p o x y) else .error .outOfBounds := by
  obtain ⟨h0, h1, h2, h3, -⟩ := transformFollowsTheFourRotations p x y
  have ho : o = 0 ∨ o = 1 ∨ o = 2 ∨ o = 3 := by
    revert o
    decide
  obtain rfl | rfl | rfl | rfl := ho
  · exact h0
  · exact h1
  · exact h2
  · exact h3

theorem physical_of_inCanvas {s : State} {x y : Nat} (h : inCanvas s.params s.orient x y) :
    s.physical x y = .ok (rotate s.params s.orient x y) := by
  rw [State.physical, transform_setWidth_eq_ite, if_pos h]

theorem physical_of_not_inCanvas {s : State} {x y : Nat} (h : ¬ inCanvas s.params s.orient x y) :
    s.physical x y = .error .outOfBounds := by
  rw [State.physical, transform_setWidth_eq_ite, if_neg h]

/-- A physical coordinate is a pixel of the panel. -/
theorem physical_lt {s : State} {x y : Nat} {q : Nat × Nat} (h : s.physical x y = .ok q) :
    q.1 < s.params.width ∧ q.2 < s.params.height := by
  obtain herr | ⟨q', hq', hx, hy⟩ := physical_cases s x y
  · exact absurd (herr.symm.trans h) nofun
  · cases hq'.symm.trans h
    exact ⟨hx, hy⟩

/-! `XFM`. -/

theorem execXfm_of_physical_error {s : State} {x y : Nat} {e : Status}
    (h : s.physical x y = .error e) : execXfm x y s = s.raise e := by
  rw [execXfm, h]

theorem execXfm_of_physical_ok {s : State} {x y : Nat} {q : Nat × Nat}
    (h : s.physical x y = .ok q) : execXfm x y s = s.respond (lanes 0 0 q.1 q.2) := by
  rw [execXfm, h]

/-- Numbers of 16 bits stand in their lanes unchanged (R56). -/
theorem respond_lanes_answered {s t : State} {a b c d : Nat} (h : s.respond (lanes a b c d) = .next t)
    (ha : a < 65536) (hb : b < 65536) (hc : c < 65536) (hd : d < 65536) : t.answered .ok a b c d := by
  rw [respond_eq] at h
  cases h
  exact ⟨_, rfl, rfl, rfl, by rw [lane_lanes_3, Nat.mod_eq_of_lt ha],
    by rw [lane_lanes_2, Nat.mod_eq_of_lt hb], by rw [lane_lanes_1, Nat.mod_eq_of_lt hc],
    by rw [lane_lanes_0, Nat.mod_eq_of_lt hd]⟩

/-- Outside the canvas `XFM` is refused (R72). -/
theorem execXfm_outside {s : State} {x y : Nat} (h : ¬ inCanvas s.params s.orient x y) :
    ∃ t, execXfm x y s = .next t ∧ s.sameBlock t ∧ t.answered .outOfBounds 0 0 0 0 := by
  have hraise := raise_eq s .outOfBounds
  exact ⟨_, (execXfm_of_physical_error (physical_of_not_inCanvas h)).trans hraise,
    raise_sameBlock hraise, raise_answered hraise⟩

/-- Inside the canvas `XFM` answers the rotated coordinate, which a legal panel keeps within 16 bits (R72). -/
theorem execXfm_inside {s : State} {x y : Nat} (hlegal : s.params.legal)
    (h : inCanvas s.params s.orient x y) :
    ∃ t, execXfm x y s = .next t ∧ s.sameBlock t ∧
      t.answered .ok 0 0 (rotate s.params s.orient x y).1 (rotate s.params s.orient x y).2 := by
  have hphysical := physical_of_inCanvas h
  obtain ⟨hx, hy⟩ := physical_lt hphysical
  obtain ⟨-, hwidth, -, hheight, -⟩ := hlegal
  have hrespond := respond_eq s (lanes 0 0 (rotate s.params s.orient x y).1
    (rotate s.params s.orient x y).2)
  exact ⟨_, (execXfm_of_physical_ok hphysical).trans hrespond, respond_sameBlock hrespond,
    respond_lanes_answered hrespond (by omega) (by omega) (by omega) (by omega)⟩

/-- Settles O17: refused outside the canvas, the rotated coordinate inside it, orientation by orientation. -/
theorem xfmAnswersThePhysicalCoordinate : Obligations.XfmAnswersThePhysicalCoordinate := by
  unfold Obligations.XfmAnswersThePhysicalCoordinate
  intro s x y hlegal
  by_cases hin : inCanvas s.params s.orient x y
  · obtain ⟨t, hexec, hsame, hanswered⟩ := execXfm_inside hlegal hin
    have rotated {o : BitVec 2} (ho : s.orient = o) :
        t.answered .ok 0 0 (rotate s.params o x y).1 (rotate s.params o x y).2 := ho ▸ hanswered
    exact ⟨t, hexec, hsame, fun hout => absurd hin hout, fun _ =>
      ⟨fun ho => rotated ho, fun ho => rotated ho, fun ho => rotated ho, fun ho => rotated ho⟩⟩
  · obtain ⟨t, hexec, hsame, hanswered⟩ := execXfm_outside hin
    exact ⟨t, hexec, hsame, fun _ => hanswered, fun hcanvas => absurd hcanvas hin⟩

end Sys2Proof.Machine
end

section
/-! SUPPORT. `SPX` and `CLR` (spec/41_pixel.md rules R80 to R83): what painting a pixel writes and what it
keeps, how `SPX` answers inside the canvas and outside it, and what `CLR` leaves. -/

namespace Sys2Proof.Machine

/-! What painting a pixel writes and keeps. -/

theorem paint_frame (s : State) (px py : Nat) (v : Bool) (old : Byte) :
    (s.paint px py v old).params = s.params ∧ (s.paint px py v old).orient = s.orient ∧
    (s.paint px py v old).inputs = s.inputs := by
  obtain ⟨-, hpaint⟩ | ⟨-, hpaint⟩ := paint_cases s px py v old <;> rw [hpaint] <;>
    exact ⟨rfl, rfl, rfl⟩

theorem paint_wf {s : State} (hs : Memory.wf s.fb) (px py : Nat) (v : Bool) (old : Byte) :
    Memory.wf (s.paint px py v old).fb := by
  obtain ⟨-, hpaint⟩ | ⟨-, hpaint⟩ := paint_cases s px py v old <;> rw [hpaint]
  · exact hs
  · exact write_wf hs _ _

theorem read_paint_other (s : State) {px py a : Nat} (v : Bool) (old : Byte)
    (ha : a ≠ pixelAddr s.params px py) :
    Memory.read (s.paint px py v old).fb a = Memory.read s.fb a := by
  obtain ⟨-, hpaint⟩ | ⟨-, hpaint⟩ := paint_cases s px py v old <;> rw [hpaint]
  exact read_write_other s.fb _ ha

/-- Also where no write happens: there the painted byte is the old one (R80). -/
theorem read_paint_same {s : State} (hs : Memory.wf s.fb) (px py : Nat) (v : Bool) :
    Memory.read (s.paint px py v (Memory.read s.fb (pixelAddr s.params px py))).fb
        (pixelAddr s.params px py) =
      paintByte (Memory.read s.fb (pixelAddr s.params px py)) (pixelMask py) v := by
  obtain ⟨hsame, hpaint⟩ | ⟨-, hpaint⟩ :=
    paint_cases s px py v (Memory.read s.fb (pixelAddr s.params px py)) <;> rw [hpaint]
  · exact hsame.symm
  · exact read_write_same hs _ _

theorem pending_of_tracker {r : Region} (h : r.tracker = .pending) : r.pending = true :=
  (pending_iff r).mpr (tracker_eq_pending_iff.mp h)

theorem widen_covers (r : Region) {px py : Nat} (hx : px < 4096) (hy : py < 4096) :
    (r.widen px py).covers px py := by
  rw [Region.covers, widen_xmin r py hx, widen_xmax r py hx, widen_ymin r px hy, widen_ymax r px hy]
  omega

/-- A physical coordinate of a legal panel fits a 12-bit register (R4, R14). -/
theorem physical_lt_4096 {s : State} {x y px py : Nat} (hlegal : s.params.legal)
    (hq : s.physical x y = .ok (px, py)) : px < 4096 ∧ py < 4096 := by
  obtain ⟨-, hwidth, -, hheight, -⟩ := hlegal
  obtain ⟨hx, hy⟩ := physical_lt hq
  exact ⟨Nat.lt_of_lt_of_le hx hwidth, Nat.lt_of_lt_of_le hy hheight⟩

/-! How `SPX` answers and what it leaves. -/

theorem respond_zero_answered {s t : State} (h : s.respond 0 = .next t) : t.answered .ok 0 0 0 0 := by
  rw [respond_eq] at h
  cases h
  exact ⟨_, rfl, rfl, rfl, lane_zero 3, lane_zero 2, lane_zero 1, lane_zero 0⟩

/-- Outside the canvas `SPX` is refused (R80). -/
theorem execSpx_outside {s : State} {x y : Nat} (v : Bool) (h : ¬ inCanvas s.params s.orient x y) :
    ∃ t, execSpx x y v s = .next t ∧ s.sameBlock t ∧ t.answered .outOfBounds 0 0 0 0 := by
  have hraise := raise_eq s .outOfBounds
  have hexec : execSpx x y v s = s.raise .outOfBounds := by
    rw [execSpx, physical_of_not_inCanvas h]
  exact ⟨_, hexec.trans hraise, raise_sameBlock hraise, raise_answered hraise⟩

/-- Inside the canvas `SPX` completes with `OK` and data 0, whether or not it writes (R80, R83). -/
theorem execSpx_inside {s : State} {x y px py : Nat} (v : Bool) (hlegal : s.params.legal)
    (hq : s.physical x y = .ok (px, py)) :
    ∃ t, execSpx x y v s = .next t ∧ t.answered .ok 0 0 0 0 := by
  obtain ⟨hx, hy⟩ := physical_lt hq
  simp only [execSpx, hq, memRead_of_lt (pixelAddr_lt hlegal hx hy)]
  exact ⟨_, respond_eq _ 0, respond_zero_answered (respond_eq _ 0)⟩

/-- What `SPX` leaves alone, whether refused or not (R80). -/
theorem execSpx_frame {x y : Nat} {v : Bool} {s t : State} (h : execSpx x y v s = .next t) :
    t.params = s.params ∧ t.orient = s.orient ∧ t.inputs = s.inputs := by
  obtain ⟨-, rfl⟩ | ⟨q, u, -, -, -, -, rfl, rfl⟩ := execSpx_next_cases h
  · exact ⟨rfl, rfl, rfl⟩
  · exact paint_frame s q.1 q.2 v _

/-- `SPX` keeps what the transform depends on. -/
theorem execSpx_physical {x y : Nat} {v : Bool} {s t : State} (h : execSpx x y v s = .next t)
    (x' y' : Nat) : t.physical x' y' = s.physical x' y' := by
  obtain ⟨hparams, horient, -⟩ := execSpx_frame h
  rw [State.physical, hparams, horient, State.physical]

theorem execSpx_wf {x y : Nat} {v : Bool} {s t : State} (hs : Memory.wf s.fb)
    (h : execSpx x y v s = .next t) : Memory.wf t.fb := by
  obtain ⟨-, rfl⟩ | ⟨q, u, -, -, -, -, rfl, rfl⟩ := execSpx_next_cases h
  · exact hs
  · exact paint_wf hs q.1 q.2 v _

theorem execSpx_legal {x y : Nat} {v : Bool} {s t : State} (hlegal : s.params.legal)
    (h : execSpx x y v s = .next t) : t.params.legal := by
  obtain ⟨hparams, -⟩ := execSpx_frame h
  rwa [hparams]

/-- At a pixel of the panel `SPX` leaves the painted block behind its response (R80). -/
theorem execSpx_sameBlock_paint {x y px py : Nat} {v : Bool} {s t : State}
    (hq : s.physical x y = .ok (px, py)) (h : execSpx x y v s = .next t) :
    (s.paint px py v (Memory.read s.fb (pixelAddr s.params px py))).sameBlock t := by
  obtain ⟨herr, -⟩ | ⟨q, u, hq', -, -, -, rfl, rfl⟩ := execSpx_next_cases h
  · exact absurd (herr.symm.trans hq) nofun
  · cases hq'.symm.trans hq
    exact sameBlock_setResp _ _

/-- The bytes after `SPX`: of the pixel's byte only the pixel's bit is new, every other byte is kept (R80). -/
theorem execSpx_read {x y px py : Nat} {v : Bool} {s t : State} (hs : Memory.wf s.fb)
    (hq : s.physical x y = .ok (px, py)) (h : execSpx x y v s = .next t) :
    (∀ a, a ≠ pixelAddr s.params px py → Memory.read t.fb a = Memory.read s.fb a) ∧
    (∀ k, k < 8 → (Memory.read t.fb (pixelAddr s.params px py)).getLsbD k =
      if k = pixelBit py then v
      else (Memory.read s.fb (pixelAddr s.params px py)).getLsbD k) := by
  obtain ⟨-, hfb, -⟩ := execSpx_sameBlock_paint hq h
  rw [hfb]
  refine ⟨fun a ha => read_paint_other s v _ ha, fun k hk => ?_⟩
  rw [read_paint_same hs, paintByte_bit _ py v hk]

/-- The registers after `SPX`: widened exactly where the pixel's bit changed (R80, R83). -/
theorem execSpx_region {x y px py : Nat} {v : Bool} {s t : State}
    (hq : s.physical x y = .ok (px, py)) (h : execSpx x y v s = .next t) :
    t.region = if s.pixel px py = v then s.region else s.region.widen px py := by
  obtain ⟨-, -, hregion, -⟩ := execSpx_sameBlock_paint hq h
  rw [hregion, paint_region]

/-- `SPX` of the value its pixel has writes nothing (R83). -/
theorem execSpx_same_value {x y px py : Nat} {v : Bool} {s t : State}
    (hq : s.physical x y = .ok (px, py)) (hv : s.pixel px py = v) (h : execSpx x y v s = .next t) :
    s.sameBlock t :=
  execSpx_sameBlock_of_pixel h fun q hq' => by
    cases hq.symm.trans hq'
    exact hv

/-- After `SPX` its pixel reads `v` (R80). -/
theorem execSpx_sets_pixel {x y px py : Nat} {v : Bool} {s t : State} (hs : Memory.wf s.fb)
    (hq : s.physical x y = .ok (px, py)) (h : execSpx x y v s = .next t) : t.pixel px py = v :=
  execSpx_pixel (q := (px, py)) hs h ((execSpx_physical h x y).trans hq)

/-- Settles O18: `execSpx_outside` outside the canvas; inside it, one lemma each for the answer, the frame,
the bytes and the registers. -/
theorem spxWritesOneBitAndWidens : Obligations.SpxWritesOneBitAndWidens := by
  unfold Obligations.SpxWritesOneBitAndWidens
  intro s x y v hlegal hs
  refine ⟨fun hout => execSpx_outside v hout, fun hin => ?_⟩
  obtain ⟨⟨px, py⟩, hq⟩ : ∃ q, s.physical x y = .ok q := ⟨_, physical_of_inCanvas hin⟩
  obtain ⟨t, h, hanswered⟩ := execSpx_inside v hlegal hq
  obtain ⟨hparams, horient, hinputs⟩ := execSpx_frame h
  obtain ⟨hothers, hbits⟩ := execSpx_read hs hq h
  refine ⟨px, py, t, hq, h, hanswered, hparams, horient, hinputs, hothers, hbits,
    fun hsame => ?_, fun hdiff => ?_⟩
  · obtain ⟨-, hfb, hregion, -⟩ := execSpx_same_value hq hsame h
    exact ⟨hfb, hregion⟩
  · have hregion : t.region = s.region.widen px py :=
      (execSpx_region hq h).trans (if_neg hdiff)
    obtain ⟨hx, hy⟩ := physical_lt_4096 hlegal hq
    rw [State.pendingLine, hregion]
    exact ⟨pending_of_tracker (widen_tracker _ hx hy), widen_xmin _ py hx, widen_xmax _ py hx,
      widen_ymin _ px hy, widen_ymax _ px hy⟩

/-! An `SPX` of the value a pixel has already (R83). -/

/-- The host's flush asks `FPLAN` first and stops where the flag is false (R122). -/
theorem flush_of_not_pending {s : State} (h : s.pendingLine = false) (as : List Answer) :
    flush as s =
      some ⟨.ok, s.setResp (some ⟨.ok, s.region.pending, s.region.planLanes⟩), []⟩ := by
  have hissue : issue .fplan s = some (⟨.ok, s.region.pending, s.region.planLanes⟩,
      s.setResp (some ⟨.ok, s.region.pending, s.region.planLanes⟩)) := rfl
  rw [State.pendingLine] at h
  rw [flush, hissue]
  simp only [h, Bool.false_eq_true, if_false]

/-- Settles O19: an equal value writes nothing, and after `SPX` the pixel holds the operand, so that the
same `SPX` is one of an equal value and the opposite `SPX` is one that widens the region. -/
theorem spxOfTheSameValueChangesNothing : Obligations.SpxOfTheSameValueChangesNothing := by
  unfold Obligations.SpxOfTheSameValueChangesNothing
  intro s x y px py hlegal hs hq
  refine ⟨fun v hv => ?_, fun v t h => ?_, fun t h => ?_⟩
  · obtain ⟨t, h, hanswered⟩ := execSpx_inside v hlegal hq
    have hblock := execSpx_same_value hq hv h
    refine ⟨t, h, hblock, hanswered, fun hempty as => ?_⟩
    obtain ⟨-, -, hregion, -⟩ := hblock
    have hempty' : t.pendingLine = false := by rwa [State.pendingLine, hregion]
    exact ⟨_, flush_of_not_pending hempty' as, rfl, rfl⟩
  · have hq' := (execSpx_physical h x y).trans hq
    obtain ⟨u, h', -⟩ := execSpx_inside v (execSpx_legal hlegal h) hq'
    exact ⟨u, h', execSpx_same_value hq' (execSpx_sets_pixel hs hq h) h'⟩
  · have hq' := (execSpx_physical h x y).trans hq
    have hlegal' := execSpx_legal hlegal h
    have hon : t.pixel px py = true := execSpx_sets_pixel hs hq h
    obtain ⟨u, h', -⟩ := execSpx_inside false hlegal' hq'
    have hoff : u.pixel px py = false := execSpx_sets_pixel (execSpx_wf hs h) hq' h'
    have hregion : u.region = t.region.widen px py :=
      (execSpx_region hq' h').trans (if_neg (by simp [hon]))
    obtain ⟨hx, hy⟩ := physical_lt_4096 hlegal' hq'
    exact ⟨hon, u, h', hoff, hregion ▸ widen_covers t.region hx hy⟩

/-! `CLR`. -/

/-- Settles O21: the bytes are those of `Memory.zeroBelow`, the registers those of `full_transition`. -/
theorem clrZeroesEveryByteAndMarksFull : Obligations.ClrZeroesEveryByteAndMarksFull := by
  unfold Obligations.ClrZeroesEveryByteAndMarksFull
  intro s hlegal
  obtain ⟨htracker, hfull⟩ := full_transition hlegal
  have hrespond := respond_eq s.zeroFb.markFull 0
  exact ⟨_, hrespond, respond_zero_answered hrespond, rfl, rfl, rfl,
    fun _ ha => read_zeroBelow_below s.fb ha, fun _ ha => read_zeroBelow_beyond s.fb ha, hfull,
    pending_of_tracker htracker⟩

end Sys2Proof.Machine
end

section
/-! SUPPORT. `DPEEK`, `DTAKE` and `DRST` (spec/42_dirty.md rules R90 to R92): what a command that empties
the tracker leaves of the block, whatever it answers. -/

namespace Sys2Proof.Machine

theorem pending_eq_false_of_tracker {r : Region} (h : r.tracker = .empty) : r.pending = false := by
  rw [← Bool.not_eq_true, pending_iff, ← tracker_eq_pending_iff]
  exact tracker_eq_empty_iff.mp h

/-- What `DTAKE` and `DRST` share: the registers at the empty encoding, the flag false, and nothing else
of the block changed (R91, R92). -/
theorem emptyTracker_respond_empties {s t : State} {d : Data} (hlegal : s.params.legal)
    (h : s.emptyTracker.respond d = .next t) :
    t.region.isEmpty s.params ∧ t.pendingLine = false ∧
    t.fb = s.fb ∧ t.orient = s.orient ∧ t.params = s.params ∧ t.inputs = s.inputs := by
  obtain ⟨hparams, hfb, hregion, horient, hinputs⟩ := respond_sameBlock h
  have hregion : t.region = Region.empty s.params := hregion
  obtain ⟨htracker, hempty⟩ := empty_transition hlegal
  rw [State.pendingLine, hregion]
  exact ⟨hempty, pending_eq_false_of_tracker htracker, hfb, horient, hparams, hinputs⟩

/-- Settles O22: `DPEEK` only answers, and a 12-bit register stands in its lane unchanged. -/
theorem dpeekAnswersTheRegisters : Obligations.DpeekAnswersTheRegisters := by
  unfold Obligations.DpeekAnswersTheRegisters
  intro s
  have hrespond := respond_eq s s.region.asLanes
  exact ⟨_, hrespond, respond_sameBlock hrespond, respond_asLanes_answered hrespond⟩

/-- Settles O23: the answer is formed from the registers before `emptyTracker_respond_empties`. -/
theorem dtakeAnswersTheRegistersAndEmpties : Obligations.DtakeAnswersTheRegistersAndEmpties := by
  unfold Obligations.DtakeAnswersTheRegistersAndEmpties
  intro s hlegal
  have hrespond := respond_eq s.emptyTracker s.region.asLanes
  exact ⟨_, hrespond, respond_asLanes_answered hrespond,
    emptyTracker_respond_empties hlegal hrespond⟩

/-- Settles O24: the tracker is emptied as by `DTAKE`, and the data is 0. -/
theorem drstEmptiesTheTracker : Obligations.DrstEmptiesTheTracker := by
  unfold Obligations.DrstEmptiesTheTracker
  intro s hlegal
  have hrespond := respond_eq s.emptyTracker 0
  exact ⟨_, hrespond, respond_zero_answered hrespond,
    emptyTracker_respond_empties hlegal hrespond⟩

end Sys2Proof.Machine
end

section
/-! SUPPORT. `RDB` (spec/43_scanout.md rule R100): how it answers inside the framebuffer and outside it, and
which pixels the bits of its byte are. -/

namespace Sys2Proof.Machine

/-- A byte answered as data stands in the lowest lane, and the lanes above it are 0 (R56). -/
theorem respond_byte_answered {s t : State} {b : Byte} (h : s.respond (b.setWidth 64) = .next t) :
    t.answered .ok 0 0 0 b.toNat := by
  rw [respond_eq] at h
  cases h
  exact ⟨_, rfl, rfl, rfl, lane_byte_pos b (by omega), lane_byte_pos b (by omega),
    lane_byte_pos b (by omega), lane_byte_0 b⟩

/-- With the page or the column out of range `RDB` is refused (R100). -/
theorem execRdb_outside {s : State} {pg c : Nat} (h : pages s.params ≤ pg ∨ s.params.width ≤ c) :
    ∃ t, execRdb pg c s = .next t ∧ s.sameBlock t ∧ t.answered .outOfBounds 0 0 0 0 := by
  have hraise := raise_eq s .outOfBounds
  have hexec : execRdb pg c s = s.raise .outOfBounds := if_pos h
  exact ⟨_, hexec.trans hraise, raise_sameBlock hraise, raise_answered hraise⟩

/-- With the page and the column in range `RDB` answers their byte, which exists (R31, R100). -/
theorem execRdb_inside {s : State} {pg c : Nat} (hp : pg < pages s.params) (hc : c < s.params.width) :
    ∃ t, execRdb pg c s = .next t ∧ s.sameBlock t ∧ t.answered .ok 0 0 0 (s.byteAt pg c).toNat := by
  have hrespond := respond_eq s ((s.byteAt pg c).setWidth 64)
  have hexec : execRdb pg c s = s.respond ((s.byteAt pg c).setWidth 64) := by
    rw [execRdb, if_neg (by omega), memRead_of_lt (addr_lt hp hc), State.byteAt]
  exact ⟨_, hexec.trans hrespond, respond_sameBlock hrespond, respond_byte_answered hrespond⟩

/-- Bit `k` of the byte at a page and column is the pixel `k` rows below the page's top (R32). -/
theorem byteAt_bit_eq_pixel (s : State) (pg c : Nat) {k : Nat} (hk : k < 8) :
    (s.byteAt pg c).getLsbD k = s.pixel c (8 * pg + k) := by
  have hpage : (8 * pg + k) / 8 = pg := by omega
  have hbit : (8 * pg + k) % 8 = k := by omega
  rw [State.pixel, pixelAddr, pixelBit, hpage, hbit, State.byteAt]

/-- Settles O29: `execRdb_outside` out of range; in range `execRdb_inside` and, for the bits of its byte,
`byteAt_bit_eq_pixel`. -/
theorem rdbAnswersTheByte : Obligations.RdbAnswersTheByte := by
  unfold Obligations.RdbAnswersTheByte
  intro s pg c
  refine ⟨fun hout => execRdb_outside hout, fun hp hc => ?_⟩
  obtain ⟨t, h, hsame, hanswered⟩ := execRdb_inside hp hc
  exact ⟨t, h, hsame, hanswered, fun _ hk => byteAt_bit_eq_pixel s pg c hk⟩

end Sys2Proof.Machine
end

section
/-! SUPPORT. `SETO` and `GEO` (spec/44_config.md rules R110, R111): how `SETO` answers an operand in range
and one above 3, and that the constants of a legal instance fit their lanes. -/

namespace Sys2Proof.Machine

theorem execSeto_of_le {r : Nat} (s : State) (h : r ≤ 3) :
    execSeto r s = (s.setOrient (BitVec.ofNat 2 r)).respond 0 := if_neg (Nat.not_lt.mpr h)

theorem execSeto_of_lt {r : Nat} (s : State) (h : 3 < r) :
    execSeto r s = s.raise .invalidArgument := if_pos h

/-- With an operand up to 3, which two bits hold, `SETO` stores it and leaves the rest of the block (R110). -/
theorem execSeto_stores {r : Nat} (s : State) (h : r ≤ 3) :
    ∃ t, execSeto r s = .next t ∧ t.answered .ok 0 0 0 0 ∧ t.orient.toNat = r ∧
      t.fb = s.fb ∧ t.region = s.region ∧ t.params = s.params ∧ t.inputs = s.inputs := by
  have hrespond := respond_eq (s.setOrient (BitVec.ofNat 2 r)) 0
  obtain ⟨hparams, hfb, hregion, horient, hinputs⟩ := respond_sameBlock hrespond
  have hr : (BitVec.ofNat 2 r).toNat = r := by rw [BitVec.toNat_ofNat]; omega
  exact ⟨_, (execSeto_of_le s h).trans hrespond, respond_zero_answered hrespond,
    (congrArg BitVec.toNat horient).trans hr, hfb, hregion, hparams, hinputs⟩

/-- With an operand above 3 `SETO` is refused (R110). -/
theorem execSeto_refuses {r : Nat} (s : State) (h : 3 < r) :
    ∃ t, execSeto r s = .next t ∧ t.answered .invalidArgument 0 0 0 0 ∧ s.sameBlock t := by
  have hraise := raise_eq s .invalidArgument
  exact ⟨_, (execSeto_of_lt s h).trans hraise, raise_answered hraise, raise_sameBlock hraise⟩

/-- Settles O30: `execSeto_stores` up to 3, `execSeto_refuses` above. -/
theorem setoSetsTheOrientation : Obligations.SetoSetsTheOrientation := by
  unfold Obligations.SetoSetsTheOrientation
  exact fun s _ => ⟨fun hle => execSeto_stores s hle, fun hlt => execSeto_refuses s hlt⟩

/-- Settles O31: `GEO` only answers, and R4 keeps `WIDTH` and `HEIGHT` within 16 bits. -/
theorem geoAnswersTheGeometry : Obligations.GeoAnswersTheGeometry := by
  unfold Obligations.GeoAnswersTheGeometry
  intro s hlegal
  obtain ⟨-, hwidth, -, hheight, -⟩ := hlegal
  have horient := s.orient.isLt
  have hrespond := respond_eq s (lanes s.params.width s.params.height 0 s.orient.toNat)
  exact ⟨_, hrespond, respond_sameBlock hrespond,
    respond_lanes_answered hrespond (by omega) (by omega) (by omega) (by omega)⟩

end Sys2Proof.Machine
end

section
/-! SUPPORT. The host's flush (spec/50_boundary.md rule R122), outside the block: where the flag is false
nothing is executed but `FPLAN`. -/

namespace Sys2Proof.Machine

/-- Settles O44: the flush is `FPLAN` alone (`flush_of_not_pending`), and `FPLAN` only writes a response. -/
theorem flushOfAnEmptyTrackerSendsNothing : Obligations.FlushOfAnEmptyTrackerSendsNothing := by
  unfold Obligations.FlushOfAnEmptyTrackerSendsNothing
  intro s as hempty
  exact ⟨_, flush_of_not_pending hempty as, rfl, rfl, sameBlock_setResp s _⟩

end Sys2Proof.Machine
end

section
/-! SUPPORT. Exceptions (spec/60_exceptions.md rules R140, R142, R147): every command completes by `respond`
or by `raise`, a status other than `OK` is one of `raise`, and no command reads the response port. -/

namespace Sys2Proof.Machine

/-! What a failed command leaves (R142). -/

theorem respond_status {s t : State} {d : Data} {r : Response} (h : s.respond d = .next t)
    (hr : t.resp = some r) : r.status = .ok := by
  rw [respond_eq] at h
  cases h
  cases hr
  rfl

/-- A command completes in one of the two ways there are: `respond` after its writes, or `raise` on the
state it found (R55, R140). -/
theorem exec_respond_or_raise {i : Instr} {s t : State} (h : exec i s = .next t) :
    (∃ u d, State.respond u d = .next t) ∨ ∃ e, s.raise e = .next t := by
  cases i with
  | spx x y v =>
    obtain ⟨-, rfl⟩ | ⟨_, u, -, -, -, -, -, rfl⟩ := execSpx_next_cases h
    · exact .inr ⟨_, raise_eq s _⟩
    · exact .inl ⟨u, _, respond_eq u _⟩
  | seto n =>
    obtain ⟨-, rfl⟩ | ⟨-, rfl⟩ := execSeto_next_cases h
    · exact .inr ⟨_, raise_eq s _⟩
    · exact .inl ⟨_, _, respond_eq (s.setOrient _) _⟩
  | xfm x y =>
    obtain ⟨-, rfl⟩ | ⟨_, -, -, -, rfl⟩ := execXfm_next_cases h
    · exact .inr ⟨_, raise_eq s _⟩
    · exact .inl ⟨s, _, respond_eq s _⟩
  | rdb pg c =>
    obtain ⟨-, rfl⟩ | ⟨-, -, rfl⟩ := execRdb_next_cases h
    · exact .inr ⟨_, raise_eq s _⟩
    · exact .inl ⟨s, _, respond_eq s _⟩
  | clr => exact .inl ⟨_, _, h⟩
  | dpeek => exact .inl ⟨_, _, h⟩
  | dtake => exact .inl ⟨_, _, h⟩
  | drst => exact .inl ⟨_, _, h⟩
  | fplan => exact .inl ⟨_, _, h⟩
  | geo => exact .inl ⟨_, _, h⟩

/-- A failed command has written the response port and nothing else (R142). -/
theorem exec_failed_eq_setResp {i : Instr} {s t : State} {r : Response} (h : exec i s = .next t)
    (hr : t.resp = some r) (hfail : r.status ≠ .ok) : t = s.setResp (some r) := by
  obtain ⟨_, _, hrespond⟩ | ⟨e, hraise⟩ := exec_respond_or_raise h
  · exact absurd (respond_status hrespond hr) hfail
  · rw [raise_eq] at hraise
    cases hraise
    cases hr
    rfl

/-- A word that decodes is taken from the port and executed. -/
theorem step_of_decode_ok {s : State} {w : Word} {rest : List HostInput} {i : Instr}
    (hlegal : s.params.legal) (hinputs : s.inputs = .command w :: rest) (hi : decode w = .ok i) :
    step s = exec i (s.setInputs rest) := by
  simp only [step, if_pos hlegal, hinputs, hi]

/-- Settles O32: an illegal word is answered by `raise`, and a failed command has written the response port
alone, both after the word is taken from the port. -/
theorem failedCommandsChangeNothing : Obligations.FailedCommandsChangeNothing := by
  unfold Obligations.FailedCommandsChangeNothing
  intro s t w rest r hinputs h hr hfail
  obtain ⟨hlegal, -⟩ := step_next_cases h
  have hblock : (s.setInputs rest).sameBlock t := by
    cases hw : decode w with
    | ok i =>
      rw [step_of_decode_ok hlegal hinputs hw] at h
      rw [exec_failed_eq_setResp h hr hfail]
      exact sameBlock_setResp _ _
    | error e =>
      rw [step_of_decode_error hlegal hinputs hw] at h
      exact raise_sameBlock h
  obtain ⟨hparams, hfb, hregion, horient, hrest⟩ := hblock
  exact ⟨hfb, hregion, horient, hparams, hrest⟩

/-! The command after a failed one (R147). -/

/-- Painting neither reads nor writes the response port. -/
theorem paint_setResp (s : State) (r : Option Response) (px py : Nat) (v : Bool) (old : Byte) :
    (s.setResp r).paint px py v old = (s.paint px py v old).setResp r := by
  simp only [State.paint]
  split <;> rfl

/-- A completed `SPX` carries nothing of the earlier response: painting keeps it, and `respond` replaces it. -/
theorem execSpx_setResp (x y : Nat) (v : Bool) (s : State) (r : Option Response) :
    execSpx x y v (s.setResp r) = execSpx x y v s := by
  have hpaint (q : Nat × Nat) (old : Byte) :
      ((s.setResp r).paint q.1 q.2 v old).respond 0 = (s.paint q.1 q.2 v old).respond 0 := by
    rw [paint_setResp]
    rfl
  simp only [execSpx, hpaint]
  rfl

/-- No command reads the response port, and each one that answers replaces what it held. Only `SPX` chooses
between writing and not writing, so the others are equal by definition. -/
theorem exec_setResp (i : Instr) (s : State) (r : Option Response) :
    exec i (s.setResp r) = exec i s := by
  cases i with
  | spx x y v => exact execSpx_setResp x y v s r
  | clr => rfl
  | seto n => rfl
  | xfm x y => rfl
  | rdb pg c => rfl
  | dpeek => rfl
  | dtake => rfl
  | drst => rfl
  | fplan => rfl
  | geo => rfl

/-- Settles O34: the failed command has written the response port alone, which no command reads. -/
theorem commandAfterAFailedOneRunsAsIfItWereAlone :
    Obligations.CommandAfterAFailedOneRunsAsIfItWereAlone := by
  unfold Obligations.CommandAfterAFailedOneRunsAsIfItWereAlone
  intro i j s t r h hr hfail
  rw [exec_failed_eq_setResp h hr hfail]
  exact exec_setResp j s _

end Sys2Proof.Machine
end

section
/-! SUPPORT. The encoder undoes the decoder (spec/30_encoding.md rules R51 to R57): the word of a format is
rebuilt from its opcode and its fields. -/

namespace Sys2Proof

/-! A word is its opcode and its fields. -/

/-- Format C: bits 31 to 24, `X` and `Y` are all of the word (R51). -/
theorem wordC_fields {w : Word} {k : Nat} (h : w.toNat / 2 ^ 24 = k) :
    wordC (BitVec.ofNat 32 (k * 2 ^ 24)) (fieldX w) (fieldY w) = w := by
  have hw := w.isLt
  rw [fieldX_eq, fieldY_eq, ← BitVec.toNat_inj, wordC_toNat (by omega) (by omega) (by omega)]
  omega

/-- Format P: bits 31 to 25, `V`, `X` and `Y` are all of the word (R51). -/
theorem wordP_fields {w : Word} (h : w.toNat / 2 ^ 25 = 8) :
    wordP 0x10000000#32 (fieldV w) (fieldX w) (fieldY w) = w := by
  have hbit : (fieldV w).toNat = w.toNat / 16777216 % 2 := by
    rw [fieldV_eq]
    obtain h0 | h1 := Nat.mod_two_eq_zero_or_one (w.toNat / 16777216)
    · simp [h0]
    · simp [h1]
  rw [← BitVec.toNat_inj, wordP_toNat (by rw [fieldX_eq]; omega) (by rw [fieldY_eq]; omega), hbit,
    fieldX_eq, fieldY_eq]
  omega

/-- Format O: bits 31 to 8 and `R` are all of the word (R51). -/
theorem wordO_fields {w : Word} (h : w.toNat / 2 ^ 8 = 0x300000) :
    wordO 0x30000000#32 (fieldR w) = w := by
  rw [fieldR_eq, ← BitVec.toNat_inj, wordO_toNat (by omega)]
  omega

/-! What the fields read fits them. -/

theorem fitsCoordinate_fieldX (w : Word) : fitsCoordinate (fieldX w) = true :=
  decide_eq_true (w.extractLsb' 12 12).isLt

theorem fitsCoordinate_fieldY (w : Word) : fitsCoordinate (fieldY w) = true :=
  decide_eq_true (w.extractLsb' 0 12).isLt

theorem fitsOrientation_fieldR (w : Word) : fitsOrientation (fieldR w) = true :=
  decide_eq_true (w.extractLsb' 0 8).isLt

/-- Whatever a row reads from a word it accepts is well-formed. -/
theorem wellFormed_of_row {r : Row} (hr : r ∈ opcodeRows) (w : Word) :
    (r.build w).wellFormed = true := by
  simp only [opcodeRows, List.mem_cons, List.not_mem_nil, or_false] at hr
  obtain rfl | rfl | rfl | rfl | rfl | rfl | rfl | rfl | rfl | rfl := hr <;>
    simp [Instr.wellFormed, fitsCoordinate_fieldX, fitsCoordinate_fieldY, fitsOrientation_fieldR]

/-- The mask of a row without operands tests every bit, so it accepts its pattern alone. -/
theorem eq_pattern_of_accepts {r : Row} {w : Word} (hm : r.mask = 0xFFFFFFFF#32)
    (h : r.accepts w = true) : r.pattern = w := by
  rw [Row.accepts, hm, beq_iff_eq, show 0xFFFFFFFF#32 = BitVec.allOnes 32 from rfl,
    BitVec.and_allOnes] at h
  exact h.symm

/-- What a row reads from a word it accepts is encoded as that word. -/
theorem encode_of_row {r : Row} (hr : r ∈ opcodeRows) {w : Word} (h : r.accepts w = true) :
    encode (r.build w) = w := by
  simp only [opcodeRows, List.mem_cons, List.not_mem_nil, or_false] at hr
  obtain rfl | rfl | rfl | rfl | rfl | rfl | rfl | rfl | rfl | rfl := hr
  case inl => -- `SPX`
    rw [accepts_high _ w (k := 25) (p := 8) rfl rfl (by decide), decide_eq_true_eq] at h
    exact wordP_fields h
  case inr.inr.inl => -- `SETO`
    rw [accepts_high _ w (k := 8) (p := 0x300000) rfl rfl (by decide), decide_eq_true_eq] at h
    exact wordO_fields h
  case inr.inr.inr.inl => -- `XFM`
    rw [accepts_high _ w (k := 24) (p := 0x40) rfl rfl (by decide), decide_eq_true_eq] at h
    exact wordC_fields h
  case inr.inr.inr.inr.inl => -- `RDB`
    rw [accepts_high _ w (k := 24) (p := 0x50) rfl rfl (by decide), decide_eq_true_eq] at h
    exact wordC_fields h
  all_goals exact eq_pattern_of_accepts rfl h

/-- Settles O1: one round trip per command (`Laws.RoundTrip`). -/
theorem decodeOfEncodeGivesTheCommand : Obligations.DecodeOfEncodeGivesTheCommand := by
  unfold Obligations.DecodeOfEncodeGivesTheCommand
  intro i
  cases i with
  | spx x y v => exact Laws.RoundTrip.spx x y v
  | clr => exact Laws.RoundTrip.clr
  | seto r => exact Laws.RoundTrip.seto r
  | xfm x y => exact Laws.RoundTrip.xfm x y
  | rdb pg c => exact Laws.RoundTrip.rdb pg c
  | dpeek => exact Laws.RoundTrip.dpeek
  | dtake => exact Laws.RoundTrip.dtake
  | drst => exact Laws.RoundTrip.drst
  | fplan => exact Laws.RoundTrip.fplan
  | geo => exact Laws.RoundTrip.geo

/-- Settles O2: the word was accepted by a row, whose operands fit and which encodes as the word. -/
theorem encodeOfDecodeGivesTheWord : Obligations.EncodeOfDecodeGivesTheWord := by
  unfold Obligations.EncodeOfDecodeGivesTheWord
  intro w i h
  obtain ⟨r, hr, hrw, rfl⟩ := exists_row_of_scanRows_ok h
  exact ⟨wellFormed_of_row hr w, encode_of_row hr hrw⟩

/-- Settles O5: ten closed words, read by the decoder. -/
theorem specWordsDecodeToTheirCommands : Obligations.SpecWordsDecodeToTheirCommands := by
  unfold Obligations.SpecWordsDecodeToTheirCommands
  decide

end Sys2Proof
end

section
/-! SUPPORT. The places of the panel (spec/10_state.md section 2, spec/20_memory.md section 1,
spec/40_transform.md section 1): the transform has an inverse on the panel, and a pixel and a bit of the
framebuffer name each other. -/

namespace Sys2Proof.Machine

/-! Logical coordinates and physical pixels. -/

/-- The logical coordinate that `rotate` sends to a pixel of the panel. -/
def unrotate (p : Params) (o : BitVec 2) (px py : Nat) : Nat × Nat :=
  match o.toNat with
  | 0 => (px, py)
  | 1 => (py, p.width - px - 1)
  | 2 => (p.width - px - 1, p.height - py - 1)
  | _ => (p.height - py - 1, px)

/-- A pixel of the panel is reached from one coordinate of the canvas, and from no other (R73). -/
theorem rotate_eq_iff {p : Params} (o : BitVec 2) {px py : Nat} (hx : px < p.width)
    (hy : py < p.height) (x y : Nat) :
    (inCanvas p o x y ∧ rotate p o x y = (px, py)) ↔ unrotate p o px py = (x, y) := by
  have ho : o = 0 ∨ o = 1 ∨ o = 2 ∨ o = 3 := by
    revert o
    decide
  obtain rfl | rfl | rfl | rfl := ho <;> simp [inCanvas, rotate, unrotate] <;> omega

theorem transform_eq_ok_iff {p : Params} (o : BitVec 2) {px py : Nat} (hx : px < p.width)
    (hy : py < p.height) (x y : Nat) :
    transform p x y (o.setWidth 8) = .ok (px, py) ↔ unrotate p o px py = (x, y) := by
  rw [transform_setWidth_eq_ite, ite_ok_error_eq_ok, rotate_eq_iff o hx hy]

/-- Settles O16: defined on the canvas by `transform_setWidth_eq_ite`, on the panel by `physical_lt`, and
inverted there by `unrotate`. -/
theorem transformIsABijectionOntoThePanel : Obligations.TransformIsABijectionOntoThePanel := by
  unfold Obligations.TransformIsABijectionOntoThePanel
  intro p o
  refine ⟨fun x y => ?_, fun x y q hq => ?_, fun px py hx hy => ?_⟩
  · simp only [transform_setWidth_eq_ite, ite_ok_error_eq_ok, exists_and_left, exists_eq', and_true]
  · exact physical_lt (s := (State.resetWith p).setOrient o) hq
  · obtain ⟨⟨x, y⟩, hxy⟩ : ∃ q, unrotate p o px py = q := ⟨_, rfl⟩
    refine ⟨x, y, (transform_eq_ok_iff o hx hy x y).mpr hxy, fun x' y' h => ?_⟩
    have hxy' := (transform_eq_ok_iff o hx hy x' y').mp h
    exact Prod.mk.inj (hxy'.symm.trans hxy)

/-! Pixels and bits. -/

/-- A page and a column in range can be read back from their address (R31). -/
theorem addr_eq_iff {p : Params} {pg c : Nat} (hc : c < p.width) (a : Nat) :
    addr p pg c = a ↔ a / p.width = pg ∧ a % p.width = c := by
  rw [Nat.div_mod_unique (by omega), addr, and_iff_left hc, Nat.mul_comm, Nat.add_comm]

theorem addr_inj {p : Params} {pg c pg' c' : Nat} (hc : c < p.width) (hc' : c' < p.width)
    (h : addr p pg c = addr p pg' c') : pg = pg' ∧ c = c' := by
  obtain ⟨hpg, hcol⟩ := (addr_eq_iff hc _).mp h
  obtain ⟨hpg', hcol'⟩ := (addr_eq_iff hc' _).mp rfl
  exact ⟨hpg.symm.trans hpg', hcol.symm.trans hcol'⟩

/-- Settles O40: an address names a page and a column, and with the bit index it names the row. -/
theorem pixelsAndBitsCorrespondOneToOne : Obligations.PixelsAndBitsCorrespondOneToOne := by
  unfold Obligations.PixelsAndBitsCorrespondOneToOne
  intro p hlegal
  refine ⟨fun px py hx hy => ⟨pixelAddr_lt hlegal hx hy, Nat.mod_lt _ (by omega)⟩,
    fun px py qx qy hpx _ hqx _ haddr hbit => ?_, fun a k ha hk => ?_⟩
  · obtain ⟨hpage, hcol⟩ := addr_inj hpx hqx haddr
    rw [pixelBit, pixelBit] at hbit
    exact ⟨hcol, by omega⟩
  · have hcol : a % p.width < p.width := Nat.mod_lt _ (by omega)
    have hpage : a / p.width < p.height / 8 := Nat.div_lt_of_lt_mul ha
    have hrow : (8 * (a / p.width) + k) / 8 = a / p.width := by omega
    refine ⟨a % p.width, 8 * (a / p.width) + k, hcol, by omega, ?_, by rw [pixelBit]; omega⟩
    rw [pixelAddr, hrow, addr_eq_iff hcol]
    exact ⟨rfl, rfl⟩

/-! `RDB` after `SPX`. -/

theorem execRdb_of_lt {s : State} {pg c : Nat} (hp : pg < pages s.params) (hc : c < s.params.width) :
    execRdb pg c s = s.respond ((s.byteAt pg c).setWidth 64) := by
  rw [execRdb, if_neg (by omega), memRead_of_lt (addr_lt hp hc), State.byteAt]

/-- Settles O20: after `SPX` the pixel reads `v` (`execSpx_sets_pixel`), and it is bit `py mod 8` of the
byte that `RDB` answers (`byteAt_bit_eq_pixel`). -/
theorem rdbAfterSpxReadsTheWrittenBit : Obligations.RdbAfterSpxReadsTheWrittenBit := by
  unfold Obligations.RdbAfterSpxReadsTheWrittenBit
  intro s x y px py v hlegal hs hq
  obtain ⟨t, h, -⟩ := execSpx_inside v hlegal hq
  obtain ⟨hx, hy⟩ := physical_lt ((execSpx_physical h x y).trans hq)
  have hbit : py % 8 < 8 := Nat.mod_lt _ (by omega)
  have hrow : 8 * (py / 8) + py % 8 = py := by omega
  have hrdb : exec (.rdb (py / 8) px) t = t.respond ((t.byteAt (py / 8) px).setWidth 64) :=
    execRdb_of_lt (page_lt (execSpx_legal hlegal h) hy) hx
  refine ⟨t, _, _, h, hrdb.trans (respond_eq t _), rfl, rfl, ?_⟩
  rw [BitVec.getLsbD_setWidth, byteAt_bit_eq_pixel t _ _ hbit, hrow, execSpx_sets_pixel hs hq h,
    decide_eq_true (by omega), Bool.true_and]

end Sys2Proof.Machine
end

section
/-! SUPPORT. The dirty region under the invariant (spec/10_state.md rules R14 to R19, spec/41_pixel.md rule
R81, spec/42_dirty.md rule R93): what the flag says of the registers, what `Widen` gives, and the plan. -/

namespace Sys2Proof.Machine

/-! The flag. -/

theorem pending_of_isRect {p : Params} {r : Region} (h : r.isRect p) : r.pending = true := by
  obtain ⟨hx, -, hy, -⟩ := h
  exact (pending_iff r).mpr ⟨hx, hy⟩

theorem not_pending_of_isEmpty {p : Params} {r : Region} (hp : p.legal) (h : r.isEmpty p) :
    r.pending = false :=
  pending_eq_false_of_tracker (tracker_of_isEmpty hp h)

/-- Settles O28: the two cases of R19 are told apart by the flag. -/
theorem pendingIsZeroExactlyForTheEmptyEncoding :
    Obligations.PendingIsZeroExactlyForTheEmptyEncoding := by
  unfold Obligations.PendingIsZeroExactlyForTheEmptyEncoding
  intro s hs
  have hlegal := legal_of_inv hs
  rw [State.pendingLine]
  obtain ⟨-, -, hempty | hrect⟩ := hs
  · have hflag := not_pending_of_isEmpty hlegal hempty
    refine ⟨iff_of_true hflag hempty, iff_of_false (by simp [hflag]) fun hrect => ?_⟩
    simp [pending_of_isRect hrect] at hflag
  · have hflag := pending_of_isRect hrect
    refine ⟨iff_of_false (by simp [hflag]) fun hempty => ?_, iff_of_true hflag hrect⟩
    simp [not_pending_of_isEmpty hlegal hempty] at hflag

/-! What `Widen` gives (R81). -/

theorem region_ext_toNat {r r' : Region} (hxmin : r.xmin.toNat = r'.xmin.toNat)
    (hxmax : r.xmax.toNat = r'.xmax.toNat) (hymin : r.ymin.toNat = r'.ymin.toNat)
    (hymax : r.ymax.toNat = r'.ymax.toNat) : r = r' := by
  cases r
  cases r'
  simp only [Region.mk.injEq, ← BitVec.toNat_inj]
  exact ⟨hxmin, hxmax, hymin, hymax⟩

/-- `Widen` at a pixel of a legal panel is the minimum and the maximum on each axis. -/
theorem widen_toNat {p : Params} (r : Region) {px py : Nat} (hp : p.legal) (hx : px < p.width)
    (hy : py < p.height) :
    (r.widen px py).xmin.toNat = min r.xmin.toNat px ∧
    (r.widen px py).xmax.toNat = max r.xmax.toNat px ∧
    (r.widen px py).ymin.toNat = min r.ymin.toNat py ∧
    (r.widen px py).ymax.toNat = max r.ymax.toNat py := by
  obtain ⟨-, hwidth, -, hheight, -⟩ := hp
  exact ⟨widen_xmin r py (by omega), widen_xmax r py (by omega), widen_ymin r px (by omega),
    widen_ymax r px (by omega)⟩

theorem widen_of_isFull {p : Params} {r : Region} {px py : Nat} (hp : p.legal) (h : r.isFull p)
    (hx : px < p.width) (hy : py < p.height) : r.widen px py = r := by
  obtain ⟨hxmin, hxmax, hymin, hymax⟩ := widen_toNat r hp hx hy
  apply region_ext_toNat <;> omega

theorem widen_isRect {p : Params} {r : Region} {px py : Nat} (hp : p.legal)
    (h : r.isEmpty p ∨ r.isRect p) (hx : px < p.width) (hy : py < p.height) :
    (r.widen px py).isRect p := by
  obtain ⟨hxmin, hxmax, hymin, hymax⟩ := widen_toNat r hp hx hy
  rw [Region.isRect, hxmin, hxmax, hymin, hymax]
  omega

/-- Settles O26: every clause is one about minima and maxima (`widen_toNat`). -/
theorem widenGivesTheSmallestRectangle : Obligations.WidenGivesTheSmallestRectangle := by
  unfold Obligations.WidenGivesTheSmallestRectangle
  intro p r px py hp hx hy
  obtain ⟨hxmin, hxmax, hymin, hymax⟩ := widen_toNat r hp hx hy
  refine ⟨⟨hxmin, hxmax, hymin, hymax⟩, fun qx qy hq => ?_, fun hempty => widen_of_isEmpty hp hempty hx hy,
    fun hfull => widen_of_isFull hp hfull hx hy,
    fun hrect => ⟨widen_isRect hp (.inr hrect) hx hy, ?_, fun r' hpx hlow hhigh => ?_⟩⟩
  · rw [Region.covers, hxmin, hxmax, hymin, hymax]
    omega
  · rw [Region.covers, hxmin, hxmax, hymin, hymax]
    omega
  · rw [Region.covers, Region.covers, hxmin, hxmax, hymin, hymax]
    omega

/-! The plan (R93). -/

/-- `HEIGHT` is a multiple of 8 (R4), so the last row lies in the last page. -/
theorem last_row_page {p : Params} (hp : p.legal) : (p.height - 1) / 8 = pages p - 1 := by
  obtain ⟨-, -, -, -, hrows⟩ := hp
  rw [pages]
  omega

/-- A register, and its page, fit a lane. -/
theorem respond_planLanes_answered {s t : State} {r : Region} (h : s.respond r.planLanes = .next t) :
    t.answered .ok r.xmin.toNat r.xmax.toNat (r.ymin.toNat / 8) (r.ymax.toNat / 8) := by
  have hxmin := r.xmin.isLt
  have hxmax := r.xmax.isLt
  have hymin := r.ymin.isLt
  have hymax := r.ymax.isLt
  exact respond_lanes_answered h (by omega) (by omega) (by omega) (by omega)

/-- Settles O25: `FPLAN` answers the registers, which the invariant and the flag place. -/
theorem fplanAnswersThePlan : Obligations.FplanAnswersThePlan := by
  unfold Obligations.FplanAnswersThePlan
  have hrespond (s : State) := respond_eq s s.region.planLanes
  refine ⟨fun s => ⟨_, hrespond s, respond_sameBlock (hrespond s),
    respond_planLanes_answered (hrespond s)⟩, fun s hs => ⟨_, hrespond s, fun hempty => ?_,
    fun hpending => ?_⟩⟩
  all_goals
    have hlegal := legal_of_inv hs
    obtain ⟨hfalse, htrue⟩ := pendingIsZeroExactlyForTheEmptyEncoding s hs
    have hanswered := respond_planLanes_answered (hrespond s)
  · obtain ⟨hxmin, hxmax, hymin, hymax⟩ := hfalse.mp hempty
    rwa [hxmin, hxmax, hymin, hymax, last_row_page hlegal, Nat.zero_div] at hanswered
  · obtain ⟨hx, hx', hy, hy'⟩ := htrue.mp hpending
    exact ⟨_, _, _, _, hanswered, by omega, by omega, by omega, page_lt hlegal (by omega)⟩

end Sys2Proof.Machine
end

section
/-! SUPPORT. What every command has in common (spec/20_memory.md section 2, spec/10_state.md sections 3 to 5,
spec/60_exceptions.md rule R141): that it completes, what it may write, and what its status and its effect
depend on. -/

namespace Sys2Proof.Machine

/-! Every command completes. -/

theorem exec_completes {s : State} (hlegal : s.params.legal) (i : Instr) :
    ∃ t, exec i s = .next t := by
  cases i with
  | spx x y v =>
    by_cases hin : inCanvas s.params s.orient x y
    · exact (execSpx_inside v hlegal (physical_of_inCanvas hin)).imp fun _ => And.left
    · exact (execSpx_outside v hin).imp fun _ => And.left
  | xfm x y =>
    by_cases hin : inCanvas s.params s.orient x y
    · exact (execXfm_inside hlegal hin).imp fun _ => And.left
    · exact (execXfm_outside hin).imp fun _ => And.left
  | rdb pg c =>
    by_cases hout : pages s.params ≤ pg ∨ s.params.width ≤ c
    · exact (execRdb_outside hout).imp fun _ => And.left
    · exact (execRdb_inside (by omega) (by omega)).imp fun _ => And.left
  | seto r =>
    by_cases hr : r ≤ 3
    · exact (execSeto_stores s hr).imp fun _ => And.left
    · exact (execSeto_refuses s (by omega)).imp fun _ => And.left
  | clr => exact ⟨_, respond_eq _ _⟩
  | dpeek => exact ⟨_, respond_eq _ _⟩
  | dtake => exact ⟨_, respond_eq _ _⟩
  | drst => exact ⟨_, respond_eq _ _⟩
  | fplan => exact ⟨_, respond_eq _ _⟩
  | geo => exact ⟨_, respond_eq _ _⟩

theorem raise_responds {s t : State} {e : Status} (h : s.raise e = .next t) :
    ∃ r, t.resp = some r ∧ r.pending = t.region.pending ∧ (r.status ≠ .ok → r.data = 0) := by
  rw [raise_eq] at h
  cases h
  exact ⟨_, rfl, rfl, fun _ => rfl⟩

/-- Every command that completes leaves a response, as R55 says it. -/
theorem exec_responds {i : Instr} {s t : State} (h : exec i s = .next t) :
    ∃ r, t.resp = some r ∧ r.pending = t.region.pending ∧ (r.status ≠ .ok → r.data = 0) := by
  obtain ⟨u, d, hrespond⟩ | ⟨e, hraise⟩ := exec_respond_or_raise h
  · rw [respond_eq] at hrespond
    cases hrespond
    exact ⟨_, rfl, rfl, fun hfail => absurd rfl hfail⟩
  · exact raise_responds hraise

/-! What a command may write. -/

/-- A command that leaves the block alone is within every frame. -/
theorem frame_of_sameBlock (i : Instr) {s t : State} (h : s.sameBlock t) :
    t.params = s.params ∧ t.inputs = s.inputs ∧
    (t.fb = s.fb ∨ i = .clr ∨ ∃ x y v, i = .spx x y v) ∧
    (t.region = s.region ∨ i = .clr ∨ i = .dtake ∨ i = .drst ∨ ∃ x y v, i = .spx x y v) ∧
    (t.orient = s.orient ∨ ∃ r, i = .seto r) := by
  obtain ⟨hparams, hfb, hregion, horient, hinputs⟩ := h
  exact ⟨hparams, hinputs, .inl hfb, .inl hregion, .inl horient⟩

/-- Settles O36: the readers leave the block alone, and the others write what their own lemmas say. -/
theorem onlyTheNamedCommandsWriteState : Obligations.OnlyTheNamedCommandsWriteState := by
  unfold Obligations.OnlyTheNamedCommandsWriteState
  intro i s t h
  cases i with
  | spx x y v =>
    obtain ⟨hparams, horient, hinputs⟩ := execSpx_frame h
    exact ⟨hparams, hinputs, .inr (.inr ⟨x, y, v, rfl⟩), by simp, .inl horient⟩
  | clr =>
    obtain ⟨hparams, -, -, horient, hinputs⟩ := respond_sameBlock h
    exact ⟨hparams, hinputs, .inr (.inl rfl), .inr (.inl rfl), .inl horient⟩
  | seto r =>
    obtain ⟨-, rfl⟩ | ⟨-, rfl⟩ := execSeto_next_cases h <;>
      exact ⟨rfl, rfl, .inl rfl, .inl rfl, .inr ⟨r, rfl⟩⟩
  | dtake =>
    obtain ⟨hparams, hfb, -, horient, hinputs⟩ := respond_sameBlock h
    exact ⟨hparams, hinputs, .inl hfb, by simp, .inl horient⟩
  | drst =>
    obtain ⟨hparams, hfb, -, horient, hinputs⟩ := respond_sameBlock h
    exact ⟨hparams, hinputs, .inl hfb, by simp, .inl horient⟩
  | xfm x y => exact frame_of_sameBlock _ (execXfm_sameBlock h)
  | rdb pg c => exact frame_of_sameBlock _ (execRdb_sameBlock h)
  | dpeek => exact frame_of_sameBlock _ (respond_sameBlock h)
  | fplan => exact frame_of_sameBlock _ (respond_sameBlock h)
  | geo => exact frame_of_sameBlock _ (respond_sameBlock h)

theorem exec_params {i : Instr} {s t : State} (h : exec i s = .next t) : t.params = s.params := by
  obtain ⟨hparams, -⟩ := onlyTheNamedCommandsWriteState i s t h
  exact hparams

theorem exec_inputs {i : Instr} {s t : State} (h : exec i s = .next t) : t.inputs = s.inputs := by
  obtain ⟨-, hinputs, -⟩ := onlyTheNamedCommandsWriteState i s t h
  exact hinputs

/-- Settles O14: it completes, leaves the inputs and leaves a response. -/
theorem everyCommandOfALegalInstanceCompletes :
    Obligations.EveryCommandOfALegalInstanceCompletes := by
  unfold Obligations.EveryCommandOfALegalInstanceCompletes
  intro i s hlegal
  obtain ⟨t, h⟩ := exec_completes hlegal i
  obtain ⟨r, hr, -⟩ := exec_responds h
  exact ⟨t, h, exec_inputs h, r, hr⟩

/-! What a status depends on (R141). -/

theorem inCanvas_of_physical_ok {s : State} {x y : Nat} {q : Nat × Nat}
    (h : s.physical x y = .ok q) : inCanvas s.params s.orient x y := by
  by_contra hout
  exact absurd (h.symm.trans (physical_of_not_inCanvas hout)) nofun

theorem not_inCanvas_of_physical_error {s : State} {x y : Nat} {e : Status}
    (h : s.physical x y = .error e) : ¬ inCanvas s.params s.orient x y := fun hin =>
  absurd (h.symm.trans (physical_of_inCanvas hin)) nofun

theorem execSpx_status {x y : Nat} {v : Bool} {s t : State} {r : Response}
    (h : execSpx x y v s = .next t) (hr : t.resp = some r) :
    ¬ inCanvas s.params s.orient x y ∧ r.status = .outOfBounds ∨
    ¬¬ inCanvas s.params s.orient x y ∧ r.status = .ok := by
  obtain ⟨herr, rfl⟩ | ⟨q, u, hq, -, -, -, -, rfl⟩ := execSpx_next_cases h <;> cases hr
  · exact .inl ⟨not_inCanvas_of_physical_error herr, rfl⟩
  · exact .inr ⟨not_not_intro (inCanvas_of_physical_ok hq), rfl⟩

theorem execXfm_status {x y : Nat} {s t : State} {r : Response}
    (h : execXfm x y s = .next t) (hr : t.resp = some r) :
    ¬ inCanvas s.params s.orient x y ∧ r.status = .outOfBounds ∨
    ¬¬ inCanvas s.params s.orient x y ∧ r.status = .ok := by
  obtain ⟨herr, rfl⟩ | ⟨q, hq, -, -, rfl⟩ := execXfm_next_cases h <;> cases hr
  · exact .inl ⟨not_inCanvas_of_physical_error herr, rfl⟩
  · exact .inr ⟨not_not_intro (inCanvas_of_physical_ok hq), rfl⟩

theorem execRdb_status {pg c : Nat} {s t : State} {r : Response}
    (h : execRdb pg c s = .next t) (hr : t.resp = some r) :
    (pages s.params ≤ pg ∨ s.params.width ≤ c) ∧ r.status = .outOfBounds ∨
    ¬ (pages s.params ≤ pg ∨ s.params.width ≤ c) ∧ r.status = .ok := by
  obtain ⟨hout, rfl⟩ | ⟨hp, hc, rfl⟩ := execRdb_next_cases h <;> cases hr
  · exact .inl ⟨hout, rfl⟩
  · exact .inr ⟨by omega, rfl⟩

/-- The causes of a command that is refused as out of bounds or completes with `OK`. -/
theorem causes_of_outOfBounds {st : Status} {out : Prop}
    (h : out ∧ st = .outOfBounds ∨ ¬ out ∧ st = .ok) :
    (st = .outOfBounds ↔ out) ∧ (st = .invalidArgument ↔ False) ∧
    st ≠ .invalidState ∧ st ≠ .ioError ∧ st ≠ .illegalCommand := by
  obtain ⟨hout, rfl⟩ | ⟨hin, rfl⟩ := h
  · simp [hout]
  · simp [hin]

/-- The causes of a command that always completes with `OK`. -/
theorem causes_of_ok {st : Status} (h : st = .ok) :
    (st = .outOfBounds ↔ False) ∧ (st = .invalidArgument ↔ False) ∧
    st ≠ .invalidState ∧ st ≠ .ioError ∧ st ≠ .illegalCommand :=
  causes_of_outOfBounds (.inr ⟨not_false, h⟩)

theorem execSeto_causes {n : Nat} {s t : State} {r : Response} (h : execSeto n s = .next t)
    (hr : t.resp = some r) :
    (r.status = .outOfBounds ↔ False) ∧ (r.status = .invalidArgument ↔ 3 < n) ∧
    r.status ≠ .invalidState ∧ r.status ≠ .ioError ∧ r.status ≠ .illegalCommand := by
  obtain ⟨hn, rfl⟩ | ⟨hn, rfl⟩ := execSeto_next_cases h <;> cases hr
  · simp [hn]
  · simp [hn]

/-- Settles O33: one lemma per command that can fail, and an illegal word is one that does not decode. -/
theorem everyStatusHasItsCauses : Obligations.EveryStatusHasItsCauses := by
  unfold Obligations.EveryStatusHasItsCauses
  refine (fun hcauses => ⟨hcauses, fun s t w rest r hinputs h hr => ?_⟩) fun i s t r h hr => ?_
  · cases i with
    | spx x y v => exact causes_of_outOfBounds (execSpx_status h hr)
    | xfm x y => exact causes_of_outOfBounds (execXfm_status h hr)
    | rdb pg c => exact causes_of_outOfBounds (execRdb_status h hr)
    | seto n => exact execSeto_causes h hr
    | clr => exact causes_of_ok (respond_status h hr)
    | dpeek => exact causes_of_ok (respond_status h hr)
    | dtake => exact causes_of_ok (respond_status h hr)
    | drst => exact causes_of_ok (respond_status h hr)
    | fplan => exact causes_of_ok (respond_status h hr)
    | geo => exact causes_of_ok (respond_status h hr)
  · obtain ⟨hrefused, -⟩ := illegalWordsCompleteWithIllegalCommand
    obtain ⟨hlegal, -⟩ := step_next_cases h
    cases hw : decode w with
    | ok i =>
      rw [step_of_decode_ok hlegal hinputs hw] at h
      obtain ⟨-, -, -, -, hne⟩ := hcauses i _ t r h hr
      refine iff_of_false hne fun hillegal => ?_
      obtain ⟨e, he⟩ := (hrefused w).mpr hillegal
      exact absurd (hw.symm.trans he) nofun
    | error e =>
      rw [step_of_decode_error hlegal hinputs hw, raise_eq] at h
      cases h
      cases hr
      exact iff_of_true rfl ((hrefused w).mp ⟨e, hw⟩)

/-! What the effect depends on. -/

theorem respond_setOrient {s t : State} {d : Data} (h : s.respond d = .next t) (o : BitVec 2) :
    (s.setOrient o).respond d = .next (t.setOrient o) := by
  rw [respond_eq] at h
  cases h
  rfl

/-- Settles O38: of these commands `RDB` alone makes a choice, and it reads the page and the column. -/
theorem otherCommandsIgnoreTheOrientation : Obligations.OtherCommandsIgnoreTheOrientation := by
  unfold Obligations.OtherCommandsIgnoreTheOrientation
  intro i s t o hspx hxfm hseto hgeo h
  cases i with
  | spx x y v => exact absurd rfl (hspx x y v)
  | xfm x y => exact absurd rfl (hxfm x y)
  | seto r => exact absurd rfl (hseto r)
  | geo => exact absurd rfl hgeo
  | rdb pg c =>
    obtain ⟨hout, rfl⟩ | ⟨hp, hc, rfl⟩ := execRdb_next_cases h
    · exact if_pos hout
    · exact execRdb_of_lt (s := s.setOrient o) hp hc
  | clr => exact respond_setOrient h o
  | dpeek => exact respond_setOrient h o
  | dtake => exact respond_setOrient h o
  | drst => exact respond_setOrient h o
  | fplan => exact respond_setOrient h o

theorem respond_setInputs {s t : State} {d : Data} (h : s.respond d = .next t)
    (l : List HostInput) : (s.setInputs l).respond d = .next (t.setInputs l) := by
  rw [respond_eq] at h
  cases h
  rfl

/-- Painting neither reads nor writes the inputs. -/
theorem paint_setInputs (s : State) (l : List HostInput) (px py : Nat) (v : Bool) (old : Byte) :
    (s.setInputs l).paint px py v old = (s.paint px py v old).setInputs l := by
  simp only [State.paint]
  split <;> rfl

/-- No command reads what the host presents later. -/
theorem exec_setInputs {i : Instr} {s t : State} (h : exec i s = .next t) (l : List HostInput) :
    exec i (s.setInputs l) = .next (t.setInputs l) := by
  cases i with
  | spx x y v =>
    obtain ⟨herr, rfl⟩ | ⟨q, u, hq, -, -, hlt, rfl, rfl⟩ := execSpx_next_cases h
    · have herr' : (s.setInputs l).physical x y = .error .outOfBounds := herr
      rw [exec, execSpx, herr']
      rfl
    · have hq' : (s.setInputs l).physical x y = .ok q := hq
      rw [exec, execSpx, hq']
      simp only [setInputs_params, memRead_of_lt (s := s.setInputs l) hlt, setInputs_fb,
        paint_setInputs]
      rfl
  | xfm x y =>
    obtain ⟨herr, rfl⟩ | ⟨q, hq, -, -, rfl⟩ := execXfm_next_cases h
    · exact execXfm_of_physical_error (s := s.setInputs l) herr
    · exact execXfm_of_physical_ok (s := s.setInputs l) hq
  | rdb pg c =>
    obtain ⟨hout, rfl⟩ | ⟨hp, hc, rfl⟩ := execRdb_next_cases h
    · exact if_pos hout
    · exact execRdb_of_lt (s := s.setInputs l) hp hc
  | seto r =>
    obtain ⟨hr, rfl⟩ | ⟨hr, rfl⟩ := execSeto_next_cases h
    · exact execSeto_of_lt _ hr
    · exact execSeto_of_le _ hr
  | clr => exact respond_setInputs h l
  | dpeek => exact respond_setInputs h l
  | dtake => exact respond_setInputs h l
  | drst => exact respond_setInputs h l
  | fplan => exact respond_setInputs h l
  | geo => exact respond_setInputs h l

/-- Settles O39: the other state is this one with other port fields, which `exec_setInputs` and
`exec_setResp` show to have no influence. -/
theorem responsesDependOnTheBlockStateAlone : Obligations.ResponsesDependOnTheBlockStateAlone := by
  unfold Obligations.ResponsesDependOnTheBlockStateAlone
  intro i s s' t hparams hfb hregion horient h
  have hports : s' = (s.setInputs s'.inputs).setResp s'.resp := by
    cases s
    cases s'
    cases hparams
    cases hfb
    cases hregion
    cases horient
    rfl
  refine ⟨t.setInputs s'.inputs, ?_, rfl, rfl, rfl, rfl, rfl, rfl⟩
  rw [hports, exec_setResp]
  exact exec_setInputs h _

end Sys2Proof.Machine
end

section
/-! SUPPORT. The step and the invariant (spec/30_encoding.md section 5, spec/10_state.md sections 3, 4 and 6,
spec/70_reset_and_hazards.md): what a step does with each input, and that the invariant holds after reset and
after every step. -/

namespace Sys2Proof.Machine

/-! What a step does with each input. -/

theorem step_of_no_input {s : State} (hlegal : s.params.legal) (hinputs : s.inputs = []) :
    step s = .next s := by
  simp only [step, if_pos hlegal, hinputs, State.idle]

theorem step_of_rst {s : State} {rest : List HostInput} (hlegal : s.params.legal)
    (hinputs : s.inputs = .rst :: rest) :
    step s = .next ((State.resetWith s.params).setInputs rest) := by
  simp only [step, if_pos hlegal, hinputs, State.takeReset, setInputs_params, setInputs_inputs]

/-- Settles O6: this is `step_of_decode_ok`. -/
theorem stepRunsTheDecodedCommand : Obligations.StepRunsTheDecodedCommand := by
  unfold Obligations.StepRunsTheDecodedCommand
  exact fun _ _ _ _ hlegal hinputs hi => step_of_decode_ok hlegal hinputs hi

/-- Settles O7: this is `step_of_no_input`. -/
theorem stepWithNoInputChangesNothing : Obligations.StepWithNoInputChangesNothing := by
  unfold Obligations.StepWithNoInputChangesNothing
  exact fun _ hlegal hinputs => step_of_no_input hlegal hinputs

/-- With legal parameters every step answers, whatever is presented. -/
theorem step_answers {s : State} (hlegal : s.params.legal) : ∃ t, step s = .next t := by
  rcases hinputs : s.inputs with _ | ⟨w | _, rest⟩
  · exact ⟨s, step_of_no_input hlegal hinputs⟩
  · cases hw : decode w with
    | ok i =>
      rw [step_of_decode_ok hlegal hinputs hw]
      exact exec_completes (s := s.setInputs rest) hlegal i
    | error e =>
      rw [step_of_decode_error hlegal hinputs hw]
      exact ⟨_, raise_eq _ _⟩
  · exact ⟨_, step_of_rst hlegal hinputs⟩

theorem step_inputs {s t : State} (h : step s = .next t) : t.inputs = s.inputs.tail := by
  obtain ⟨-, ⟨hinputs, rfl⟩ | ⟨rest, hinputs, rfl⟩ | ⟨w, rest, i, hinputs, -, hexec⟩ |
    ⟨w, rest, e, hinputs, -, rfl⟩⟩ := step_next_cases h <;> rw [hinputs]
  · rfl
  · rfl
  · exact exec_inputs hexec
  · rfl

/-- Settles O37: a reset keeps the constants, and so does a command (`exec_params`). -/
theorem noStepChangesTheInstance : Obligations.NoStepChangesTheInstance := by
  unfold Obligations.NoStepChangesTheInstance
  intro s t h
  obtain ⟨-, ⟨-, rfl⟩ | ⟨rest, -, rfl⟩ | ⟨w, rest, i, -, -, hexec⟩ | ⟨w, rest, e, -, -, rfl⟩⟩ :=
    step_next_cases h
  · rfl
  · rfl
  · exact exec_params (s := s.setInputs rest) hexec
  · rfl

/-- Settles O13: `step_answers` and `step_inputs`; a word that decodes leaves the response of its command,
any other the one of `raise`. -/
theorem everyStepAnswersTheHost : Obligations.EveryStepAnswersTheHost := by
  unfold Obligations.EveryStepAnswersTheHost
  intro s hs
  have hlegal := legal_of_inv hs
  obtain ⟨t, h⟩ := step_answers hlegal
  refine ⟨t, h, step_inputs h, fun w rest hinputs => ?_⟩
  cases hw : decode w with
  | ok i => exact exec_responds ((step_of_decode_ok hlegal hinputs hw).symm.trans h)
  | error e => exact raise_responds ((step_of_decode_error hlegal hinputs hw).symm.trans h)

/-! The invariant after reset. -/

theorem isRect_of_isFull {p : Params} {r : Region} (h : r.isFull p) : r.isRect p := by
  rw [Region.isRect]
  omega

theorem resetWith_inv {p : Params} (hp : proper p) : (State.resetWith p).inv := by
  obtain ⟨hlegal, hfb⟩ := hp
  exact ⟨⟨hlegal, hfb⟩, hfb, .inr (isRect_of_isFull (full_toNat hlegal))⟩

theorem defaultParams_proper : proper Config.defaultParams := by
  have hlegal : Config.defaultParams.legal := by
    simp only [Params.legal, Config.defaultParams]
    decide
  exact ⟨hlegal, defaultParams_fbInit_wf, defaultParams_fbInit_below⟩

/-- Settles O11: `State.reset` is the reset state of `Config.defaultParams`, which are proper. -/
theorem resetMeetsTheInvariant : Obligations.ResetMeetsTheInvariant := by
  unfold Obligations.ResetMeetsTheInvariant
  exact ⟨fun _ hp => resetWith_inv hp, resetWith_inv defaultParams_proper⟩

/-- Settles O10: the fields are those of `Config.defaultParams`, whose contents list `Config.fbInit`. -/
theorem resetIsTheDefaultInstance : Obligations.ResetIsTheDefaultInstance := by
  unfold Obligations.ResetIsTheDefaultInstance
  refine ⟨rfl, rfl, rfl, rfl, fun a ha => ?_⟩
  rw [reset_fb, read_ofFun Config.fbInit (by omega)]

/-- Settles O8: `step_of_rst`, and `FPLAN` then answers the plan of the full region. -/
theorem rstGivesTheResetState : Obligations.RstGivesTheResetState := by
  unfold Obligations.RstGivesTheResetState
  intro s rest hlegal hinputs
  obtain ⟨htracker, hfull⟩ := full_transition hlegal
  refine ⟨_, step_of_rst hlegal hinputs, rfl, rfl, rfl, hfull, rfl, pending_of_tracker htracker,
    _, respond_eq _ _, ?_⟩
  have hanswered := respond_planLanes_answered (r := Region.full s.params)
    (respond_eq ((State.resetWith s.params).setInputs rest) _)
  obtain ⟨hxmin, hxmax, hymin, hymax⟩ := hfull
  rwa [hxmin, hxmax, hymin, hymax, last_row_page hlegal, Nat.zero_div] at hanswered

/-! The invariant after a step. -/

/-- The invariant speaks of the constants, the framebuffer and the registers. -/
theorem inv_of_eq {s t : State} (hparams : t.params = s.params) (hfb : t.fb = s.fb)
    (hregion : t.region = s.region) (hs : s.inv) : t.inv := by
  rwa [State.inv, hparams, hfb, hregion]

theorem paint_fbOk {s : State} {px py : Nat} (hs : fbOk s.params s.fb)
    (hlt : pixelAddr s.params px py < fbSize s.params) (v : Bool) (old : Byte) :
    fbOk s.params (s.paint px py v old).fb := by
  obtain ⟨hwf, hbelow⟩ := hs
  obtain ⟨-, hpaint⟩ | ⟨-, hpaint⟩ := paint_cases s px py v old <;> rw [hpaint]
  · exact ⟨hwf, hbelow⟩
  · exact ⟨write_wf hwf _ _, write_below hbelow hlt _⟩

/-- A command keeps the framebuffer canonical and within its size. -/
theorem exec_fbOk {i : Instr} {s t : State} (hs : fbOk s.params s.fb) (h : exec i s = .next t) :
    fbOk s.params t.fb := by
  obtain ⟨-, -, hfb | rfl | ⟨x, y, v, rfl⟩, -⟩ := onlyTheNamedCommandsWriteState i s t h
  · rwa [hfb]
  · obtain ⟨-, hfb, -⟩ := respond_sameBlock h
    obtain ⟨hwf, hbelow⟩ := hs
    rw [hfb]
    exact ⟨zeroBelow_wf _ hwf, zeroBelow_below _ hbelow⟩
  · obtain ⟨-, rfl⟩ | ⟨q, u, -, -, -, hlt, rfl, rfl⟩ := execSpx_next_cases h
    · exact hs
    · exact paint_fbOk hs hlt v _

/-- `SPX` leaves the framebuffer and the registers alone, or it widens the registers to a pixel of the panel
and leaves every byte but that pixel's (R80, R83). -/
theorem execSpx_change_cases {x y : Nat} {v : Bool} {s t : State} (h : execSpx x y v s = .next t) :
    (t.fb = s.fb ∧ t.region = s.region) ∨
    ∃ px py, px < s.params.width ∧ py < s.params.height ∧ t.region = s.region.widen px py ∧
      ∀ a, a ≠ pixelAddr s.params px py → Memory.read t.fb a = Memory.read s.fb a := by
  obtain ⟨-, rfl⟩ | ⟨⟨px, py⟩, u, hq, hx, hy, -⟩ := execSpx_next_cases h
  · exact .inl ⟨rfl, rfl⟩
  · by_cases hv : s.pixel px py = v
    · obtain ⟨-, hfb, hregion, -⟩ := execSpx_same_value hq hv h
      exact .inl ⟨hfb, hregion⟩
    · obtain ⟨-, hfb, -⟩ := execSpx_sameBlock_paint hq h
      refine .inr ⟨px, py, hx, hy, (execSpx_region hq h).trans (if_neg hv), fun a ha => ?_⟩
      rw [hfb, read_paint_other s v _ ha]

/-- A command keeps the registers in one of the two cases of R19. -/
theorem exec_region {i : Instr} {s t : State} (hlegal : s.params.legal)
    (hs : s.region.isEmpty s.params ∨ s.region.isRect s.params) (h : exec i s = .next t) :
    t.region.isEmpty s.params ∨ t.region.isRect s.params := by
  obtain ⟨-, -, -, hregion | rfl | rfl | rfl | ⟨x, y, v, rfl⟩, -⟩ :=
    onlyTheNamedCommandsWriteState i s t h
  · rwa [hregion]
  · have hregion : t.region = Region.full s.params := respond_region h
    exact .inr (hregion ▸ isRect_of_isFull (full_toNat hlegal))
  · have hregion : t.region = Region.empty s.params := respond_region h
    exact .inl (hregion ▸ empty_toNat hlegal)
  · have hregion : t.region = Region.empty s.params := respond_region h
    exact .inl (hregion ▸ empty_toNat hlegal)
  · obtain ⟨-, hregion⟩ | ⟨px, py, hx, hy, hregion, -⟩ := execSpx_change_cases h <;> rw [hregion]
    · exact hs
    · exact .inr (widen_isRect hlegal hs hx hy)

theorem exec_inv {i : Instr} {s t : State} (hs : s.inv) (h : exec i s = .next t) : t.inv := by
  obtain ⟨⟨hlegal, hinit⟩, hfb, hregion⟩ := hs
  rw [State.inv, exec_params h]
  exact ⟨⟨hlegal, hinit⟩, exec_fbOk hfb h, exec_region hlegal hregion h⟩

/-- Settles O12: idling and an illegal word change nothing the invariant speaks of, a reset meets it anew,
and a command keeps it (`exec_inv`). -/
theorem everyStepKeepsTheInvariant : Obligations.EveryStepKeepsTheInvariant := by
  unfold Obligations.EveryStepKeepsTheInvariant
  intro s t hs h
  obtain ⟨-, ⟨-, rfl⟩ | ⟨rest, -, rfl⟩ | ⟨w, rest, i, -, -, hexec⟩ | ⟨w, rest, e, -, -, rfl⟩⟩ :=
    step_next_cases h
  · exact hs
  · obtain ⟨hproper, -⟩ := hs
    exact inv_of_eq rfl rfl rfl (resetWith_inv hproper)
  · exact exec_inv (s := s.setInputs rest) (inv_of_eq rfl rfl rfl hs) hexec
  · exact inv_of_eq rfl rfl rfl hs

end Sys2Proof.Machine
end

section
/-! SUPPORT. Runs (spec/10_state.md section 3, rule R20): what the registers say of the framebuffer over any
number of steps that do not restart the tracker. -/

namespace Sys2Proof.Machine

/-! Steps that do not restart the tracker. -/

theorem restartsTracker_iff {w : Word} {i : Instr} (hw : decode w = .ok i) :
    (HostInput.command w).restartsTracker = true ↔ i = .dtake ∨ i = .drst := by
  simp only [HostInput.restartsTracker, hw]
  cases i <;> simp

theorem clears_iff {w : Word} {i : Instr} (hw : decode w = .ok i) :
    (HostInput.command w).clears = true ↔ i = .clr := by
  simp only [HostInput.clears, hw]
  cases i <;> simp

/-- A command that does not empty the tracker leaves the framebuffer and the registers alone, or fills the
registers, or widens them to the pixel whose byte alone it writes. -/
theorem exec_change_cases {i : Instr} {s t : State} (hi : ¬ (i = .dtake ∨ i = .drst))
    (h : exec i s = .next t) :
    (t.fb = s.fb ∧ t.region = s.region) ∨ t.region = Region.full s.params ∨
    ∃ px py, px < s.params.width ∧ py < s.params.height ∧ t.region = s.region.widen px py ∧
      ∀ a, a ≠ pixelAddr s.params px py → Memory.read t.fb a = Memory.read s.fb a := by
  by_cases hclr : i = .clr
  · subst hclr
    exact .inr (.inl (respond_region h))
  by_cases hspx : ∃ x y v, i = .spx x y v
  · obtain ⟨x, y, v, rfl⟩ := hspx
    exact (execSpx_change_cases h).imp_right .inr
  · obtain ⟨-, -, hfb, hregion, -⟩ := onlyTheNamedCommandsWriteState i s t h
    obtain ⟨hdtake, hdrst⟩ := not_or.mp hi
    simp only [hclr, hspx, hdtake, hdrst, or_false] at hfb hregion
    exact .inl ⟨hfb, hregion⟩

/-- The same of a step; a reset fills the registers. -/
theorem step_change_cases {s t : State}
    (hinput : ∀ h ∈ s.inputs.take 1, h.restartsTracker = true → h = .rst) (h : step s = .next t) :
    (t.fb = s.fb ∧ t.region = s.region) ∨ t.region = Region.full s.params ∨
    ∃ px py, px < s.params.width ∧ py < s.params.height ∧ t.region = s.region.widen px py ∧
      ∀ a, a ≠ pixelAddr s.params px py → Memory.read t.fb a = Memory.read s.fb a := by
  obtain ⟨-, ⟨-, rfl⟩ | ⟨rest, -, rfl⟩ | ⟨w, rest, i, hinputs, hw, hexec⟩ |
    ⟨w, rest, e, -, -, rfl⟩⟩ := step_next_cases h
  · exact .inl ⟨rfl, rfl⟩
  · exact .inr (.inl rfl)
  · refine exec_change_cases (s := s.setInputs rest) (fun hi => ?_) hexec
    exact absurd (hinput _ (by simp [hinputs]) ((restartsTracker_iff hw).mpr hi)) nofun
  · exact .inl ⟨rfl, rfl⟩

/-! Runs. -/

/-- The inputs of a run are those of its first step and those of the run that follows. -/
theorem forall_mem_take_succ {P : HostInput → Prop} {l : List HostInput} {k : Nat}
    (h : ∀ a ∈ l.take (k + 1), P a) : (∀ a ∈ l.take 1, P a) ∧ ∀ a ∈ l.tail.take k, P a := by
  cases l with
  | nil => simp
  | cons a l => simpa using h

/-- A property of states that every step of a kind keeps is kept by every run of such steps, from a state
that meets the invariant. -/
theorem run_keeps {P : State → Prop} {allowed : HostInput → Prop}
    (hstep : ∀ s t : State, s.inv → (∀ h ∈ s.inputs.take 1, allowed h) → P s →
      step s = .next t → P t)
    {k : Nat} {s t : State} (hs : s.inv) (hP : P s)
    (hrun : Host.Core.run Sys2Proof.core k s = .next t) (hinputs : ∀ h ∈ s.inputs.take k, allowed h) :
    P t := by
  induction k generalizing s with
  | zero =>
    cases hrun
    exact hP
  | succ k ih =>
    obtain ⟨u, hu, hrun⟩ := run_succ hrun
    obtain ⟨hfirst, hrest⟩ := forall_mem_take_succ hinputs
    exact ih (everyStepKeepsTheInvariant s u hs hu) (hstep s u hs hfirst hP hu) hrun
      (by rwa [step_inputs hu])

/-- Settles O43: each step leaves the full region, fills it, or widens it to no effect. -/
theorem fullRegionStaysFullUntilEmptied : Obligations.FullRegionStaysFullUntilEmptied := by
  unfold Obligations.FullRegionStaysFullUntilEmptied
  intro k s t hs hfull hrun hinputs
  refine run_keeps (P := fun s => s.region.isFull s.params) (fun s t hs hinput hfull h => ?_)
    hs hfull hrun hinputs
  have hlegal := legal_of_inv hs
  rw [noStepChangesTheInstance s t h]
  obtain ⟨-, hregion⟩ | hregion | ⟨px, py, hx, hy, hregion, -⟩ := step_change_cases hinput h <;>
    rw [hregion]
  · exact hfull
  · exact full_toNat hlegal
  · rwa [widen_of_isFull hlegal hfull hx hy]

/-! Changed bytes lie in the plan. -/

theorem plans_of_isFull {p : Params} {r : Region} {pg c : Nat} (hp : p.legal) (h : r.isFull p)
    (hpg : pg < pages p) (hc : c < p.width) : r.plans pg c := by
  obtain ⟨hxmin, hxmax, hymin, hymax⟩ := h
  rw [Region.plans, hxmin, hxmax, hymin, hymax, last_row_page hp]
  omega

/-- A step that does not restart the tracker keeps what is planned and plans what it changes. -/
theorem step_plans {s t : State} (hs : s.inv)
    (hinput : ∀ h ∈ s.inputs.take 1, h.restartsTracker = true → h = .rst) (h : step s = .next t)
    {pg c : Nat} (hpg : pg < pages s.params) (hc : c < s.params.width)
    (hold : s.region.plans pg c ∨ t.byteAt pg c ≠ s.byteAt pg c) : t.region.plans pg c := by
  have hlegal := legal_of_inv hs
  rw [State.byteAt, noStepChangesTheInstance s t h, State.byteAt] at hold
  obtain ⟨hfb, hregion⟩ | hregion | ⟨px, py, hx, hy, hregion, hothers⟩ :=
    step_change_cases hinput h <;> rw [hregion]
  · exact hold.resolve_right fun hne => hne (by rw [hfb])
  · exact plans_of_isFull hlegal (full_toNat hlegal) hpg hc
  · obtain ⟨hxmin, hxmax, hymin, hymax⟩ := widen_toNat s.region hlegal hx hy
    rw [Region.plans, hxmin, hxmax, hymin, hymax]
    obtain hplan | hne := hold
    · omega
    · have haddr : addr s.params pg c = pixelAddr s.params px py :=
        of_not_not fun hother => hne (hothers _ hother)
      obtain ⟨hpage, hcol⟩ := addr_inj hc hx haddr
      omega

/-- Settles O41: over a run, a byte that differs from the start is one a step changed or one that was
planned before it (`step_plans`). -/
theorem flushPlanCoversEveryChangedByte : Obligations.FlushPlanCoversEveryChangedByte := by
  unfold Obligations.FlushPlanCoversEveryChangedByte
  intro k s₀ t₀ hs₀ hrun hinputs pg c hpg hc hchanged
  obtain ⟨-, hplanned⟩ : t₀.params = s₀.params ∧
      (t₀.byteAt pg c ≠ s₀.byteAt pg c → t₀.region.plans pg c) := by
    refine run_keeps
      (P := fun s => s.params = s₀.params ∧ (s.byteAt pg c ≠ s₀.byteAt pg c → s.region.plans pg c))
      (allowed := fun h => h.restartsTracker = false) (fun s t hs hinput hbefore h => ?_)
      hs₀ ⟨rfl, fun hne => absurd rfl hne⟩ hrun hinputs
    obtain ⟨hparams, hplanned⟩ := hbefore
    refine ⟨(noStepChangesTheInstance s t h).trans hparams, fun hne => ?_⟩
    have hrestart : ∀ h ∈ s.inputs.take 1, h.restartsTracker = true → h = .rst :=
      fun h hmem htrue => absurd htrue (by simp [hinput h hmem])
    refine step_plans hs hrestart h (hparams ▸ hpg) (hparams ▸ hc) ?_
    by_cases hsame : s.byteAt pg c = s₀.byteAt pg c
    · exact .inr (hsame ▸ hne)
    · exact .inl (hplanned hsame)
  exact hplanned hchanged

/-! The region is the smallest rectangle of the changes. -/

/-- `Widen` at every pixel of a list, in order. -/
def Region.widenAll (r : Region) (l : List (Nat × Nat)) : Region :=
  l.foldl (fun r q => r.widen q.1 q.2) r

/-- The region lies between the given bounds, whether it is a rectangle or not. -/
def Region.within (r : Region) (x0 x1 y0 y1 : Nat) : Prop :=
  x0 ≤ r.xmin.toNat ∧ r.xmax.toNat ≤ x1 ∧ y0 ≤ r.ymin.toNat ∧ r.ymax.toNat ≤ y1

theorem widen_within_iff {p : Params} (r : Region) {px py : Nat} (hp : p.legal) (hx : px < p.width)
    (hy : py < p.height) (x0 x1 y0 y1 : Nat) :
    (r.widen px py).within x0 x1 y0 y1 ↔
      (x0 ≤ px ∧ px ≤ x1 ∧ y0 ≤ py ∧ py ≤ y1) ∧ r.within x0 x1 y0 y1 := by
  obtain ⟨hxmin, hxmax, hymin, hymax⟩ := widen_toNat r hp hx hy
  rw [Region.within, hxmin, hxmax, hymin, hymax, Region.within]
  omega

/-- Bounds hold of the widened region exactly when they hold of the region and of every pixel. -/
theorem widenAll_within_iff {p : Params} (hp : p.legal) {l : List (Nat × Nat)}
    (hl : ∀ q ∈ l, q.1 < p.width ∧ q.2 < p.height) (r : Region) (x0 x1 y0 y1 : Nat) :
    (r.widenAll l).within x0 x1 y0 y1 ↔
      (∀ q ∈ l, x0 ≤ q.1 ∧ q.1 ≤ x1 ∧ y0 ≤ q.2 ∧ q.2 ≤ y1) ∧ r.within x0 x1 y0 y1 := by
  induction l generalizing r with
  | nil => simp [Region.widenAll]
  | cons q l ih =>
    obtain ⟨⟨hx, hy⟩, hl⟩ := List.forall_mem_cons.mp hl
    have hcons : r.widenAll (q :: l) = (r.widen q.1 q.2).widenAll l := rfl
    rw [hcons, ih hl, widen_within_iff r hp hx hy, List.forall_mem_cons]
    tauto

/-- A command that is no `SPX` changes no pixel in the sense of R20. -/
theorem changesPixel_of_not_spx {s : State} {w : Word} {rest : List HostInput} {i : Instr}
    (hinputs : s.inputs = .command w :: rest) (hw : decode w = .ok i)
    (hi : ¬ ∃ x y v, i = .spx x y v) : s.changesPixel = none := by
  simp only [State.changesPixel, hinputs, hw]
  cases i with
  | spx x y v => exact absurd ⟨x, y, v, rfl⟩ hi
  | _ => rfl

/-- An `SPX` changes its pixel exactly where it widens the registers (R80, R81). -/
theorem changesPixel_of_spx {s t : State} {w : Word} {rest : List HostInput} {x y : Nat} {v : Bool}
    (hinputs : s.inputs = .command w :: rest) (hw : decode w = .ok (.spx x y v))
    (h : execSpx x y v (s.setInputs rest) = .next t) :
    (s.changesPixel = none ∧ t.region = s.region) ∨
    ∃ q, s.changesPixel = some q ∧ q.1 < s.params.width ∧ q.2 < s.params.height ∧
      t.region = s.region.widen q.1 q.2 := by
  obtain ⟨herr, rfl⟩ | ⟨q, u, hq, hx, hy, -⟩ := execSpx_next_cases h
  · have herr : s.physical x y = .error .outOfBounds := herr
    exact .inl ⟨by simp only [State.changesPixel, hinputs, hw, herr], rfl⟩
  · have hregion := execSpx_region hq h
    have hq : s.physical x y = .ok q := hq
    have hchanges : s.changesPixel = if s.pixel q.1 q.2 = v then none else some q := by
      simp only [State.changesPixel, hinputs, hw, hq]
    by_cases hv : s.pixel q.1 q.2 = v
    · exact .inl ⟨hchanges.trans (if_pos hv), hregion.trans (if_pos hv)⟩
    · exact .inr ⟨q, hchanges.trans (if_neg hv), hx, hy, hregion.trans (if_neg hv)⟩

/-- The same of every step that neither restarts the tracker nor clears. -/
theorem step_changesPixel_cases {s t : State}
    (hinput : ∀ h ∈ s.inputs.take 1, h.restartsTracker = false ∧ h.clears = false)
    (h : step s = .next t) :
    (s.changesPixel = none ∧ t.region = s.region) ∨
    ∃ q, s.changesPixel = some q ∧ q.1 < s.params.width ∧ q.2 < s.params.height ∧
      t.region = s.region.widen q.1 q.2 := by
  obtain ⟨-, ⟨hinputs, rfl⟩ | ⟨rest, hinputs, -⟩ | ⟨w, rest, i, hinputs, hw, hexec⟩ |
    ⟨w, rest, e, hinputs, hw, rfl⟩⟩ := step_next_cases h
  · exact .inl ⟨by simp only [State.changesPixel, hinputs], rfl⟩
  · obtain ⟨hrestart, -⟩ := hinput .rst (by simp [hinputs])
    exact absurd hrestart nofun
  · by_cases hspx : ∃ x y v, i = .spx x y v
    · obtain ⟨x, y, v, rfl⟩ := hspx
      exact changesPixel_of_spx hinputs hw hexec
    · obtain ⟨hrestart, hclear⟩ := hinput (.command w) (by simp [hinputs])
      rw [← Bool.not_eq_true, restartsTracker_iff hw, not_or] at hrestart
      rw [← Bool.not_eq_true, clears_iff hw] at hclear
      obtain ⟨hdtake, hdrst⟩ := hrestart
      obtain ⟨-, -, -, hregion, -⟩ := onlyTheNamedCommandsWriteState i _ t hexec
      simp only [hclear, hdtake, hdrst, hspx, or_false] at hregion
      exact .inl ⟨changesPixel_of_not_spx hinputs hw hspx, hregion⟩
  · exact .inl ⟨by simp only [State.changesPixel, hinputs, hw], rfl⟩

/-- Over a run of such steps the registers are widened at every pixel changed, all of them on the panel. -/
theorem run_widenAll {k : Nat} {s t : State}
    (hinputs : ∀ h ∈ s.inputs.take k, h.restartsTracker = false ∧ h.clears = false)
    (hrun : Host.Core.run Sys2Proof.core k s = .next t) :
    t.params = s.params ∧ t.region = s.region.widenAll (s.changedIn k) ∧
    ∀ q ∈ s.changedIn k, q.1 < s.params.width ∧ q.2 < s.params.height := by
  induction k generalizing s with
  | zero =>
    cases hrun
    exact ⟨rfl, rfl, nofun⟩
  | succ k ih =>
    obtain ⟨u, hu, hrun⟩ := run_succ hrun
    obtain ⟨hfirst, hrest⟩ := forall_mem_take_succ hinputs
    obtain ⟨hparams, hregion, hpanel⟩ := ih (by rwa [step_inputs hu]) hrun
    have huparams := noStepChangesTheInstance s u hu
    have hchanged : s.changedIn (k + 1) = s.changesPixel.toList ++ u.changedIn k := by
      simp only [State.changedIn, hu]
    rw [huparams] at hparams hpanel
    obtain ⟨hnone, huregion⟩ | ⟨q, hsome, hx, hy, huregion⟩ := step_changesPixel_cases hfirst hu
    · rw [hchanged, hnone, ← huregion]
      exact ⟨hparams, hregion, hpanel⟩
    · rw [huregion] at hregion
      rw [hchanged, hsome]
      exact ⟨hparams, hregion, List.forall_mem_cons.mpr ⟨⟨hx, hy⟩, hpanel⟩⟩

/-- From the empty encoding, at one pixel of the panel or more: `Widen` gives a rectangle of the panel that
covers them all and lies within all bounds that hold of them all (R20). -/
theorem widenAll_smallest {p : Params} {r : Region} (hp : p.legal) (hempty : r.isEmpty p)
    {l : List (Nat × Nat)} (hl : ∀ q ∈ l, q.1 < p.width ∧ q.2 < p.height) (hne : l ≠ []) :
    (r.widenAll l).isRect p ∧ (∀ q ∈ l, (r.widenAll l).covers q.1 q.2) ∧
    ∀ x0 x1 y0 y1, (∀ q ∈ l, x0 ≤ q.1 ∧ q.1 ≤ x1 ∧ y0 ≤ q.2 ∧ q.2 ≤ y1) →
      (r.widenAll l).within x0 x1 y0 y1 := by
  obtain ⟨q₀, hq₀⟩ := List.exists_mem_of_ne_nil l hne
  obtain ⟨hx₀, hy₀⟩ := hl q₀ hq₀
  have hcovers : ∀ q ∈ l, (r.widenAll l).covers q.1 q.2 :=
    ((widenAll_within_iff hp hl r _ _ _ _).mp ⟨le_rfl, le_rfl, le_rfl, le_rfl⟩).1
  have hsmallest (x0 x1 y0 y1) (hbounds : ∀ q ∈ l, x0 ≤ q.1 ∧ q.1 ≤ x1 ∧ y0 ≤ q.2 ∧ q.2 ≤ y1) :
      (r.widenAll l).within x0 x1 y0 y1 := by
    refine (widenAll_within_iff hp hl r x0 x1 y0 y1).mpr ⟨hbounds, ?_⟩
    have hbound₀ := hbounds q₀ hq₀
    rw [Region.within]
    omega
  obtain ⟨-, hxmax, -, hymax⟩ := hsmallest 0 (p.width - 1) 0 (p.height - 1) fun q hq => by
    obtain ⟨hx, hy⟩ := hl q hq
    omega
  obtain ⟨hxmin, hxmax', hymin, hymax'⟩ := hcovers q₀ hq₀
  exact ⟨⟨hxmin.trans hxmax', hxmax, hymin.trans hymax', hymax⟩, hcovers, hsmallest⟩

/-- Settles O42: the final registers are the empty ones widened at every pixel changed (`run_widenAll`). -/
theorem regionIsTheSmallestRectangleOfTheChanges :
    Obligations.RegionIsTheSmallestRectangleOfTheChanges := by
  unfold Obligations.RegionIsTheSmallestRectangleOfTheChanges
  intro k s t hs hempty hrun hinputs
  obtain ⟨hparams, hregion, hpanel⟩ := run_widenAll hinputs hrun
  rw [hparams, hregion]
  refine ⟨fun hnone => ?_, fun hsome => widenAll_smallest (legal_of_inv hs) hempty hpanel hsome⟩
  rw [hnone]
  exact hempty

end Sys2Proof.Machine
end

section
/-! SUPPORT. The host's flush over a transport (spec/50_boundary.md section 2, rules R121, R123, R125), outside
the block: what each part of it sends, what it leaves of the block, and how the whole ends. -/

namespace Sys2Proof.Machine

theorem sameBlock_trans {s t u : State} (h : s.sameBlock t) (h' : t.sameBlock u) : s.sameBlock u := by
  obtain ⟨hparams, hfb, hregion, horient, hinputs⟩ := h
  obtain ⟨hparams', hfb', hregion', horient', hinputs'⟩ := h'
  exact ⟨hparams'.trans hparams, hfb'.trans hfb, hregion'.trans hregion, horient'.trans horient,
    hinputs'.trans hinputs⟩

theorem sameBlock_refl (s : State) : s.sameBlock s := ⟨rfl, rfl, rfl, rfl, rfl⟩

theorem params_of_sameBlock {s t : State} (h : s.sameBlock t) : t.params = s.params := by
  obtain ⟨hparams, -⟩ := h
  exact hparams

theorem byteAt_of_sameBlock {s t : State} (h : s.sameBlock t) (pg c : Nat) :
    t.byteAt pg c = s.byteAt pg c := by
  obtain ⟨hparams, hfb, -⟩ := h
  rw [State.byteAt, hparams, hfb, State.byteAt]

/-! Reading a slice. -/

theorem issue_next {i : Instr} {s t : State} {r : Response} (h : issue i s = some (r, t)) :
    exec i s = .next t := by
  unfold issue at h
  split at h
  · obtain ⟨_, -, hpair⟩ := Option.map_eq_some_iff.mp h
    cases hpair
    assumption
  · cases h
  · cases h

/-- Whatever the page and the columns, reading them leaves the block alone. -/
theorem readSlice_sameBlock {pg : Nat} {cols : List Nat} {s t : State} {bs : List Byte}
    (h : readSlice pg cols s = some (bs, t)) : s.sameBlock t := by
  induction cols generalizing s bs with
  | nil =>
    cases h
    exact sameBlock_refl t
  | cons c cols ih =>
    rw [readSlice] at h
    split at h
    · cases h
    · rename_i hissue
      split at h
      · cases h
      · rename_i hrest
        cases h
        exact sameBlock_trans (execRdb_sameBlock (issue_next hissue)) (ih hrest)

theorem issue_rdb_of_lt {s : State} {pg c : Nat} (hpg : pg < pages s.params)
    (hc : c < s.params.width) :
    ∃ r t, issue (.rdb pg c) s = some (r, t) ∧ s.sameBlock t ∧
      r.data.setWidth 8 = s.byteAt pg c := by
  have hexec : exec (.rdb pg c) s = s.respond ((s.byteAt pg c).setWidth 64) := execRdb_of_lt hpg hc
  refine ⟨_, _, by rw [issue, hexec, respond_eq]; rfl, sameBlock_setResp s _, ?_⟩
  exact BitVec.setWidth_setWidth_of_le _ (by omega)

/-- Within the panel the slice is the bytes of the page at the columns, in their order. -/
theorem readSlice_of_lt {pg : Nat} {cols : List Nat} {s : State} (hpg : pg < pages s.params)
    (hcols : ∀ c ∈ cols, c < s.params.width) :
    ∃ t, readSlice pg cols s = some (cols.map (s.byteAt pg), t) ∧ s.sameBlock t := by
  induction cols generalizing s with
  | nil => exact ⟨s, rfl, sameBlock_refl s⟩
  | cons c cols ih =>
    obtain ⟨hc, hcols⟩ := List.forall_mem_cons.mp hcols
    obtain ⟨r, u, hissue, hblock, hbyte⟩ := issue_rdb_of_lt hpg hc
    have hparams := params_of_sameBlock hblock
    obtain ⟨t, hread, hrest⟩ := ih (s := u) (by rwa [hparams]) (by rwa [hparams])
    refine ⟨t, ?_, sameBlock_trans hblock hrest⟩
    simp only [readSlice, hissue, hread, hbyte, List.map_cons, funext (byteAt_of_sameBlock hblock pg)]

/-! Sending a slice. -/

theorem sendData_nil (as : List Answer) : sendData as [] = some ⟨true, as, []⟩ := by
  cases as <;> rfl

/-- The payloads of a data-send that succeeds are the bytes it was given, cut in pieces. -/
theorem sendData_of_ok {as : List Answer} {bs : List Byte} {e : SendEnd}
    (h : sendData as bs = some e) (hok : e.ok = true) :
    ∃ sent : List (List Byte), e.calls = sent.map .data ∧ sent.flatten = bs := by
  induction as generalizing bs e with
  | nil =>
    cases bs with
    | nil =>
      cases h
      exact ⟨[], rfl, rfl⟩
    | cons b bs => cases h
  | cons a as ih =>
    cases bs with
    | nil =>
      cases h
      exact ⟨[], rfl, rfl⟩
    | cons b bs =>
      rw [sendData] at h
      split at h
      · obtain ⟨e', he', rfl⟩ := Option.map_eq_some_iff.mp h
        obtain ⟨sent, hcalls, hflat⟩ := ih he' hok
        refine ⟨(b :: bs).take a.accepted :: sent, by rw [hcalls, List.map_cons], ?_⟩
        rw [List.flatten_cons, hflat, List.take_append_drop]
      · cases h
        cases hok

/-- A transaction that accepts everything sends it whole. -/
theorem sendData_whole {k : Nat} {bs : List Byte} (hne : bs ≠ []) (hk : bs.length ≤ k)
    (as : List Answer) : sendData (⟨k, true⟩ :: as) bs = some ⟨true, as, [.data bs]⟩ := by
  cases bs with
  | nil => exact absurd rfl hne
  | cons b bs =>
    simp only [sendData, if_true, List.drop_eq_nil_of_le hk, List.take_of_length_le hk, sendData_nil,
      Option.map_some]

/-! Sending the pages. -/

theorem sendPages_sameBlock {cols pgs : List Nat} {as : List Answer} {s t : State} {e : SendEnd}
    (h : sendPages cols pgs as s = some (e, t)) : s.sameBlock t := by
  induction pgs generalizing as s e with
  | nil =>
    cases h
    exact sameBlock_refl t
  | cons pg pgs ih =>
    rw [sendPages] at h
    split at h
    · cases h
    · rename_i hread
      split at h
      · cases h
      · split at h
        · obtain ⟨⟨e', t'⟩, hrest, hpair⟩ := Option.map_eq_some_iff.mp h
          cases hpair
          exact sameBlock_trans (readSlice_sameBlock hread) (ih hrest)
        · cases h
          exact readSlice_sameBlock hread

/-- The bytes of the pages at the columns: pages in their order, columns in theirs within a page (R121). -/
def State.sliceBytes (s : State) (cols pgs : List Nat) : List Byte :=
  pgs.flatMap fun pg => cols.map (s.byteAt pg)

theorem sliceBytes_of_sameBlock {s t : State} (h : s.sameBlock t) (cols pgs : List Nat) :
    t.sliceBytes cols pgs = s.sliceBytes cols pgs := by
  simp only [State.sliceBytes, funext (byteAt_of_sameBlock h _)]

/-- A page loop that succeeds has sent, in data transactions only, the bytes of the pages. -/
theorem sendPages_of_ok {cols pgs : List Nat} {as : List Answer} {s t : State} {e : SendEnd}
    (hcols : ∀ c ∈ cols, c < s.params.width) (hpgs : ∀ pg ∈ pgs, pg < pages s.params)
    (h : sendPages cols pgs as s = some (e, t)) (hok : e.ok = true) :
    ∃ sent : List (List Byte), e.calls = sent.map .data ∧ sent.flatten = s.sliceBytes cols pgs := by
  induction pgs generalizing as s e with
  | nil =>
    cases h
    exact ⟨[], rfl, rfl⟩
  | cons pg pgs ih =>
    obtain ⟨hpg, hpgs⟩ := List.forall_mem_cons.mp hpgs
    obtain ⟨u, hread, hblock⟩ := readSlice_of_lt hpg hcols
    have hparams := params_of_sameBlock hblock
    rw [sendPages, hread] at h
    simp only at h
    split at h
    · cases h
    · rename_i hdata
      split at h
      · obtain ⟨⟨e', t'⟩, hrest, hpair⟩ := Option.map_eq_some_iff.mp h
        cases hpair
        obtain ⟨sent, hcalls, hflat⟩ := sendData_of_ok hdata ‹_›
        obtain ⟨sent', hcalls', hflat'⟩ := ih (by rwa [hparams]) (by rwa [hparams]) hrest hok
        refine ⟨sent ++ sent', by simp only [hcalls, hcalls', List.map_append], ?_⟩
        rw [List.flatten_append, hflat, hflat', sliceBytes_of_sameBlock hblock]
        rfl
      · cases h
        contradiction

/-- Over answers that each accept a whole slice the page loop succeeds with one data-send per page. -/
theorem sendPages_whole {cols pgs : List Nat} {n k : Nat} {s : State} (hne : cols ≠ [])
    (hk : cols.length ≤ k) (hcols : ∀ c ∈ cols, c < s.params.width)
    (hpgs : ∀ pg ∈ pgs, pg < pages s.params) (hn : pgs.length ≤ n) :
    ∃ e t, sendPages cols pgs (List.replicate n ⟨k, true⟩) s = some (e, t) ∧ e.ok = true ∧
      e.calls = (pgs.map fun pg => cols.map (s.byteAt pg)).map .data := by
  induction pgs generalizing n s with
  | nil => exact ⟨_, _, rfl, rfl, rfl⟩
  | cons pg pgs ih =>
    obtain ⟨hpg, hpgs⟩ := List.forall_mem_cons.mp hpgs
    obtain ⟨u, hread, hblock⟩ := readSlice_of_lt hpg hcols
    have hparams := params_of_sameBlock hblock
    obtain ⟨n, rfl⟩ : ∃ m, n = m + 1 := Nat.exists_eq_add_of_le' (Nat.one_le_of_lt hn)
    have hdata := sendData_whole (k := k) (bs := cols.map (s.byteAt pg)) (by simpa using hne)
      (by simpa using hk) (List.replicate n ⟨k, true⟩)
    obtain ⟨e, t, hpages, hok, hcalls⟩ := ih (n := n) (s := u) (by rwa [hparams]) (by rwa [hparams])
      (Nat.le_of_succ_le_succ hn)
    simp only [funext (byteAt_of_sameBlock hblock _)] at hcalls
    refine ⟨{ e with calls := .data (cols.map (s.byteAt pg)) :: e.calls }, t, ?_, hok, by
      simp only [hcalls, List.map_cons]⟩
    simp only [sendPages, hread, List.replicate_succ, hdata, if_true, hpages, Option.map_some,
      List.singleton_append]

/-! The flush as a whole. -/

theorem mem_upTo {a b x : Nat} : x ∈ upTo a b ↔ a ≤ x ∧ x ≤ b := by
  rw [upTo, List.mem_range'_1]
  omega

theorem length_upTo (a b : Nat) : (upTo a b).length = b + 1 - a := List.length_range'

theorem sendCommand_calls {c : Call} {as : List Answer} {e : SendEnd}
    (h : sendCommand c as = some e) : e.calls = [c] := by
  cases as with
  | nil => cases h
  | cons a as =>
    cases h
    rfl

/-- A planned flush ends with `IO_ERROR` and the block as it was, or with `OK` after both range commands,
the page loop and `DRST` succeeded (R121, R123). -/
theorem flushPlan_cases {c0 c1 p0 p1 : Nat} {as : List Answer} {s : State} {f : FlushEnd}
    (h : flushPlan c0 c1 p0 p1 as s = some f) :
    (f.status = .ioError ∧ s.sameBlock f.block) ∨
    (f.status = .ok ∧ ∃ as' e t r, sendPages (upTo c0 c1) (upTo p0 p1) as' s = some (e, t) ∧
      e.ok = true ∧ issue .drst t = some (r, f.block) ∧
      f.calls = .columnRange c0 c1 :: .pageRange p0 p1 :: e.calls) := by
  rw [flushPlan] at h
  split at h
  · cases h
  rename_i e1 hcolumn
  split at h
  case isFalse =>
    cases h
    exact .inl ⟨rfl, sameBlock_refl s⟩
  split at h
  · cases h
  rename_i e2 hpage
  split at h
  case isFalse =>
    cases h
    exact .inl ⟨rfl, sameBlock_refl s⟩
  split at h
  · cases h
  rename_i e3 t hpages
  split at h
  case isFalse =>
    cases h
    exact .inl ⟨rfl, sendPages_sameBlock hpages⟩
  rename_i hok
  obtain ⟨⟨r, u⟩, hissue, rfl⟩ := Option.map_eq_some_iff.mp h
  refine .inr ⟨rfl, _, e3, t, r, hpages, hok, hissue, ?_⟩
  rw [sendCommand_calls hcolumn, sendCommand_calls hpage]
  rfl

/-- Where the flag is true the flush carries out the plan that `FPLAN` answers. -/
theorem flush_of_pending {s : State} (h : s.pendingLine = true) (as : List Answer) :
    ∃ t, s.sameBlock t ∧ flush as s = flushPlan s.region.xmin.toNat s.region.xmax.toNat
      (s.region.ymin.toNat / 8) (s.region.ymax.toNat / 8) as t := by
  have hrespond := respond_eq s s.region.planLanes
  obtain ⟨r, hr, -, hpending, hxmin, hxmax, hymin, hymax⟩ := respond_planLanes_answered hrespond
  refine ⟨_, sameBlock_setResp s (some r), ?_⟩
  have hissue : issue .fplan s = some (r, s.setResp (some r)) := by
    cases hr
    rfl
  have hflag : r.pending = true := hpending.trans h
  simp only [flush, hissue, if_pos hflag, hxmin, hxmax, hymin, hymax]

/-- Settles O45: without a plan the flush ends with `OK`, and the planned one is `flushPlan_cases`. -/
theorem failedFlushLeavesTheBlockAlone : Obligations.FailedFlushLeavesTheBlockAlone := by
  unfold Obligations.FailedFlushLeavesTheBlockAlone
  intro s as f h hfail
  cases hflag : s.pendingLine with
  | false =>
    rw [flush_of_not_pending hflag] at h
    cases h
    exact absurd rfl hfail
  | true =>
    obtain ⟨t, hblock, hflush⟩ := flush_of_pending hflag as
    obtain ⟨hstatus, hblock'⟩ | ⟨hok, -⟩ := flushPlan_cases (hflush.symm.trans h)
    · exact ⟨hstatus, sameBlock_trans hblock hblock'⟩
    · exact absurd hok hfail

/-- The plan of a pending tracker lies in the panel. -/
theorem plan_lt {s : State} (hs : s.inv) (h : s.pendingLine = true) :
    (∀ c ∈ upTo s.region.xmin.toNat s.region.xmax.toNat, c < s.params.width) ∧
    ∀ pg ∈ upTo (s.region.ymin.toNat / 8) (s.region.ymax.toNat / 8), pg < pages s.params := by
  have hlegal := legal_of_inv hs
  obtain ⟨-, htrue⟩ := pendingIsZeroExactlyForTheEmptyEncoding s hs
  obtain ⟨hx, hx', hy, hy'⟩ := htrue.mp h
  refine ⟨fun c hc => ?_, fun pg hpg => ?_⟩
  · rw [mem_upTo] at hc
    omega
  · rw [mem_upTo] at hpg
    have hlast := page_lt hlegal (py := s.region.ymax.toNat) (by omega)
    omega

/-- Settles O46: the page loop sent the bytes of the plan, and `DRST` emptied the tracker. -/
theorem successfulFlushSendsThePlanAndEmpties :
    Obligations.SuccessfulFlushSendsThePlanAndEmpties := by
  unfold Obligations.SuccessfulFlushSendsThePlanAndEmpties
  intro s as f hs hflag h hok
  obtain ⟨hcols, hpgs⟩ := plan_lt hs hflag
  obtain ⟨t, hblock, hflush⟩ := flush_of_pending hflag as
  obtain ⟨hfail, -⟩ | ⟨-, as', e, u, r, hpages, heok, hissue, hcalls⟩ :=
    flushPlan_cases (hflush.symm.trans h)
  · exact absurd (hok.symm.trans hfail) nofun
  obtain ⟨hparams, hfb, -, horient, hinputs⟩ := sameBlock_trans hblock (sendPages_sameBlock hpages)
  obtain ⟨hempty, -, hfb', horient', hparams', hinputs'⟩ :=
    emptyTracker_respond_empties (hparams ▸ legal_of_inv hs) (issue_next hissue)
  have htparams := params_of_sameBlock hblock
  obtain ⟨sent, hsent, hflat⟩ :=
    sendPages_of_ok (by rwa [htparams]) (by rwa [htparams]) hpages heok
  rw [sliceBytes_of_sameBlock hblock] at hflat
  exact ⟨hparams ▸ hempty, hfb'.trans hfb, horient'.trans horient, hparams'.trans hparams,
    hinputs'.trans hinputs, sent, hsent ▸ hcalls, hflat⟩

/-- A planned flush succeeds where both range commands and the page loop do. -/
theorem flushPlan_of_ok {c0 c1 p0 p1 k : Nat} {as : List Answer} {s t : State} {e : SendEnd}
    (h : sendPages (upTo c0 c1) (upTo p0 p1) as s = some (e, t)) (hok : e.ok = true) :
    ∃ f, flushPlan c0 c1 p0 p1 (⟨k, true⟩ :: ⟨k, true⟩ :: as) s = some f ∧ f.status = .ok ∧
      f.calls.drop 2 = e.calls := by
  obtain ⟨r, u, hissue⟩ : ∃ r u, issue .drst t = some (r, u) := ⟨_, _, rfl⟩
  refine ⟨⟨.ok, u, [.columnRange c0 c1] ++ [.pageRange p0 p1] ++ e.calls⟩, ?_, rfl, rfl⟩
  simp only [flushPlan, sendCommand, if_true, h, hok, hissue, Option.map_some]

/-- Settles O47: the two range commands take one answer each, and the page loop one for every page
(`sendPages_whole`). -/
theorem flushOverAGoodTransportSendsOneSlicePerPage :
    Obligations.FlushOverAGoodTransportSendsOneSlicePerPage := by
  unfold Obligations.FlushOverAGoodTransportSendsOneSlicePerPage
  intro s n k hs hflag hk hn
  obtain ⟨-, htrue⟩ := pendingIsZeroExactlyForTheEmptyEncoding s hs
  obtain ⟨hx, -, hy, -⟩ := htrue.mp hflag
  obtain ⟨hcols, hpgs⟩ := plan_lt hs hflag
  obtain ⟨n, rfl⟩ : ∃ m, n = m + 2 := Nat.exists_eq_add_of_le' (by omega)
  obtain ⟨t, hblock, hflush⟩ := flush_of_pending hflag (List.replicate (n + 2) ⟨k, true⟩)
  have hparams := params_of_sameBlock hblock
  have hwidth := length_upTo s.region.xmin.toNat s.region.xmax.toNat
  have hheight := length_upTo (s.region.ymin.toNat / 8) (s.region.ymax.toNat / 8)
  obtain ⟨e, u, hpages, hok, hcalls⟩ := sendPages_whole (n := n) (k := k) (s := t)
    (cols := upTo s.region.xmin.toNat s.region.xmax.toNat)
    (pgs := upTo (s.region.ymin.toNat / 8) (s.region.ymax.toNat / 8))
    (List.ne_nil_of_length_pos (by omega)) (by omega) (by rwa [hparams]) (by rwa [hparams])
    (by omega)
  obtain ⟨f, hplan, hstatus, hdrop⟩ := flushPlan_of_ok (k := k) hpages hok
  refine ⟨f, hflush.trans hplan, hstatus, _, hdrop.trans hcalls, ?_, fun b hb => ?_⟩
  · rw [List.length_map]
    omega
  · obtain ⟨pg, -, rfl⟩ := List.mem_map.mp hb
    rw [List.length_map]
    omega

end Sys2Proof.Machine
end
